-- ==== Sys2Proof/Word.lean ====
section
/-! DEFINITION. Sys2Proof/Word.lean: the word types of the machine (00_scope.md R4, R6; 10_state.md R11). -/

namespace Sys2Proof

/-- A byte: 8 bits, unsigned. General registers, timers and memory cells hold one (R6, R11, R22, R26). -/
abbrev Byte := BitVec 8

/-- 16 bits: the program counter, the index register, a stack slot, an instruction word (R6, R15, R19, R20). -/
abbrev Word := BitVec 16

/-- The index of a general register, V0 to VF: a 4-bit field selects any of the 16 (R11, R12). -/
abbrev Reg := Fin 16

/-- VF, the general register that also receives the flag (R13). -/
abbrev VF : Reg := 15

end Sys2Proof
end

