-- ==== Sys2Proof/Syntax.lean ====
section
/-! DEFINITION. Sys2Proof/Syntax.lean: the instructions, one constructor per row of spec/opcode_table.json, in its order. -/

namespace Sys2Proof

/-- The 34 instructions of 30_encoding.md R72. Register fields are `Reg`, `kk` is a byte, `nnn` a 12-bit address,
`n` a row count (R63, R65). Bits that a row ignores (R76) are not part of the instruction. -/
inductive Instr where
  /-- `CLS` (R127) -/
  | cls
  /-- `RET` (R94) -/
  | ret
  /-- `JP nnn` (R95) -/
  | jp (nnn : BitVec 12)
  /-- `CALL nnn` (R96) -/
  | call (nnn : BitVec 12)
  /-- `SE Vx,kk` (R97) -/
  | seImm (x : Reg) (kk : Byte)
  /-- `SNE Vx,kk` (R98) -/
  | sneImm (x : Reg) (kk : Byte)
  /-- `SE Vx,Vy` (R99) -/
  | seReg (x y : Reg)
  /-- `LD Vx,kk` (R104) -/
  | ldImm (x : Reg) (kk : Byte)
  /-- `ADD Vx,kk` (R105) -/
  | addImm (x : Reg) (kk : Byte)
  /-- `LD Vx,Vy` (R106) -/
  | ldReg (x y : Reg)
  /-- `OR Vx,Vy` (R107) -/
  | orReg (x y : Reg)
  /-- `AND Vx,Vy` (R108) -/
  | andReg (x y : Reg)
  /-- `XOR Vx,Vy` (R109) -/
  | xorReg (x y : Reg)
  /-- `ADD Vx,Vy` (R110) -/
  | addReg (x y : Reg)
  /-- `SUB Vx,Vy` (R111) -/
  | subReg (x y : Reg)
  /-- `SHR Vx` (R112); the y field is ignored (R76) -/
  | shr (x : Reg)
  /-- `SUBN Vx,Vy` (R113) -/
  | subnReg (x y : Reg)
  /-- `SHL Vx` (R114); the y field is ignored (R76) -/
  | shl (x : Reg)
  /-- `SNE Vx,Vy` (R100) -/
  | sneReg (x y : Reg)
  /-- `LD I,nnn` (R119) -/
  | ldI (nnn : BitVec 12)
  /-- `JP V0,nnn` (R101) -/
  | jpV0 (nnn : BitVec 12)
  /-- `RND Vx,kk` (R115) -/
  | rnd (x : Reg) (kk : Byte)
  /-- `DRW Vx,Vy,n` (R128); `n` is a number of rows -/
  | drw (x y : Reg) (n : Nat)
  /-- `SKP Vx` (R136) -/
  | skp (x : Reg)
  /-- `SKNP Vx` (R137) -/
  | sknp (x : Reg)
  /-- `LD Vx,DT` (R140) -/
  | ldVxDt (x : Reg)
  /-- `LD Vx,K` (R138) -/
  | ldVxK (x : Reg)
  /-- `LD DT,Vx` (R141) -/
  | ldDtVx (x : Reg)
  /-- `LD ST,Vx` (R142) -/
  | ldStVx (x : Reg)
  /-- `ADD I,Vx` (R120) -/
  | addI (x : Reg)
  /-- `LD F,Vx` (R121) -/
  | ldF (x : Reg)
  /-- `LD B,Vx` (R122) -/
  | ldB (x : Reg)
  /-- `LD [I],Vx` (R123) -/
  | storeRegs (x : Reg)
  /-- `LD Vx,[I]` (R124) -/
  | loadRegs (x : Reg)
  deriving DecidableEq, Repr

end Sys2Proof
end

