-- ==== Sys2Proof/Decode.lean ====
section
/-! DEFINITION. Sys2Proof/Decode.lean: from words to instructions and back (30_encoding.md R62 to R79). The opcode
numbers of 30 of the 34 rows are the spec's general knowledge (G1, log 7); the model takes them as R72 prints them. -/

namespace Sys2Proof

/-- Why a word or a byte sequence is no instruction. Every one but `truncated` is a DECODE_FAILURE of R73; `truncated`
is for byte sequences too short to hold a word, which the machine never decodes (its fetch fails first, R82). -/
inductive Reject where
  /-- Fewer than the two bytes of a word (R62). -/
  | truncated
  /-- Family 0x0: the whole word is neither 0x00E0 nor 0x00EE (R68). -/
  | family0 (w : Word)
  /-- Family 0x8: the low nibble selects no instruction (R69). -/
  | family8 (w : Word)
  /-- Family 0xE: the low byte selects no instruction (R70). -/
  | familyE (w : Word)
  /-- Family 0xF: the low byte selects no instruction (R71). -/
  | familyF (w : Word)
  deriving DecidableEq, Repr

/-! ### Fields of the word (R63) -/

/-- `op`, bits 15:12. -/
def opField (w : Word) : BitVec 4 := w.extractLsb' 12 4
/-- `x`, bits 11:8. -/
def xField (w : Word) : Reg := (w.extractLsb' 8 4).toFin
/-- `y`, bits 7:4. -/
def yField (w : Word) : Reg := (w.extractLsb' 4 4).toFin
/-- `n`, bits 3:0. -/
def nField (w : Word) : BitVec 4 := w.extractLsb' 0 4
/-- `kk`, bits 7:0. -/
def kkField (w : Word) : Byte := w.extractLsb' 0 8
/-- `nnn`, bits 11:0. -/
def nnnField (w : Word) : BitVec 12 := w.extractLsb' 0 12

/-! ### Decode (R66 to R73) -/

/-- Family 0x0: the whole word is compared (R68). -/
def decodeFamily0 (w : Word) : Except Reject Instr :=
  if w = 0x00E0#16 then .ok .cls
  else if w = 0x00EE#16 then .ok .ret
  else .error (.family0 w)

/-- Family 0x8: the low nibble selects, 0 to 7 and 0xE (R69). -/
def decodeFamily8 (w : Word) : Except Reject Instr :=
  let x := xField w
  let y := yField w
  match (nField w).toNat with
  | 0x0 => .ok (.ldReg x y)
  | 0x1 => .ok (.orReg x y)
  | 0x2 => .ok (.andReg x y)
  | 0x3 => .ok (.xorReg x y)
  | 0x4 => .ok (.addReg x y)
  | 0x5 => .ok (.subReg x y)
  | 0x6 => .ok (.shr x)
  | 0x7 => .ok (.subnReg x y)
  | 0xE => .ok (.shl x)
  | _ => .error (.family8 w)

/-- Family 0xE: the low byte selects (R70). -/
def decodeFamilyE (w : Word) : Except Reject Instr :=
  if kkField w = 0x9E#8 then .ok (.skp (xField w))
  else if kkField w = 0xA1#8 then .ok (.sknp (xField w))
  else .error (.familyE w)

/-- Family 0xF: the low byte selects one of nine (R71). -/
def decodeFamilyF (w : Word) : Except Reject Instr :=
  let x := xField w
  match (kkField w).toNat with
  | 0x07 => .ok (.ldVxDt x)
  | 0x0A => .ok (.ldVxK x)
  | 0x15 => .ok (.ldDtVx x)
  | 0x18 => .ok (.ldStVx x)
  | 0x1E => .ok (.addI x)
  | 0x29 => .ok (.ldF x)
  | 0x33 => .ok (.ldB x)
  | 0x55 => .ok (.storeRegs x)
  | 0x65 => .ok (.loadRegs x)
  | _ => .error (.familyF w)

/-- Decode one word: classify by the top nibble into one of 16 families (R66); families 0x0, 0x8, 0xE and 0xF branch
further (R67 to R71). The last arm is family 0xF, the only value left of a 4-bit field. -/
def decodeWord (w : Word) : Except Reject Instr :=
  match (opField w).toNat with
  | 0x0 => decodeFamily0 w
  | 0x1 => .ok (.jp (nnnField w))
  | 0x2 => .ok (.call (nnnField w))
  | 0x3 => .ok (.seImm (xField w) (kkField w))
  | 0x4 => .ok (.sneImm (xField w) (kkField w))
  | 0x5 => .ok (.seReg (xField w) (yField w))
  | 0x6 => .ok (.ldImm (xField w) (kkField w))
  | 0x7 => .ok (.addImm (xField w) (kkField w))
  | 0x8 => decodeFamily8 w
  | 0x9 => .ok (.sneReg (xField w) (yField w))
  | 0xA => .ok (.ldI (nnnField w))
  | 0xB => .ok (.jpV0 (nnnField w))
  | 0xC => .ok (.rnd (xField w) (kkField w))
  | 0xD => .ok (.drw (xField w) (yField w) (nField w).toNat)
  | 0xE => decodeFamilyE w
  | _ => decodeFamilyF w

/-- The word two bytes stand for: big-endian, the byte at the lower address in bits 15:8 (R62, 20_memory.md R45). -/
def wordOfBytes (hi lo : Byte) : Word := hi ++ lo

/-- Decode the head of a byte sequence: an instruction and the bytes after it, or a rejection by name. Total. -/
def decode : List Byte → Except Reject (Instr × List Byte)
  | hi :: lo :: rest =>
    match decodeWord (wordOfBytes hi lo) with
    | .ok i => .ok (i, rest)
    | .error r => .error r
  | _ => .error .truncated

/-! ### Encode (R64, R72) -/

/-- The 4-bit field that holds a register index (R63). -/
def regBits (x : Reg) : BitVec 4 := BitVec.ofNat 4 x.val

/-- A word of four nibbles, the first in bits 15:12 (formats XY and XYN of R64). -/
def nibbles (op : BitVec 4) (x y : Reg) (n : BitVec 4) : Word :=
  (op ++ regBits x ++ regBits y ++ n : BitVec (4 + 4 + 4 + 4))

/-- A word of a family, a register and a byte (formats XKK and XSS of R64). -/
def nibblesByte (op : BitVec 4) (x : Reg) (kk : Byte) : Word :=
  (op ++ regBits x ++ kk : BitVec (4 + 4 + 8))

/-- A word of a family and an address (format NNN of R64). -/
def nibbleAddr (op : BitVec 4) (nnn : BitVec 12) : Word :=
  (op ++ nnn : BitVec (4 + 12))

/-- The canonical word of an instruction: ignored bits are 0 (R67, R77). -/
def encodeWord : Instr → Word
  | .cls => 0x00E0#16
  | .ret => 0x00EE#16
  | .jp nnn => nibbleAddr 0x1#4 nnn
  | .call nnn => nibbleAddr 0x2#4 nnn
  | .seImm x kk => nibblesByte 0x3#4 x kk
  | .sneImm x kk => nibblesByte 0x4#4 x kk
  | .seReg x y => nibbles 0x5#4 x y 0x0#4
  | .ldImm x kk => nibblesByte 0x6#4 x kk
  | .addImm x kk => nibblesByte 0x7#4 x kk
  | .ldReg x y => nibbles 0x8#4 x y 0x0#4
  | .orReg x y => nibbles 0x8#4 x y 0x1#4
  | .andReg x y => nibbles 0x8#4 x y 0x2#4
  | .xorReg x y => nibbles 0x8#4 x y 0x3#4
  | .addReg x y => nibbles 0x8#4 x y 0x4#4
  | .subReg x y => nibbles 0x8#4 x y 0x5#4
  | .shr x => nibbles 0x8#4 x 0 0x6#4
  | .subnReg x y => nibbles 0x8#4 x y 0x7#4
  | .shl x => nibbles 0x8#4 x 0 0xE#4
  | .sneReg x y => nibbles 0x9#4 x y 0x0#4
  | .ldI nnn => nibbleAddr 0xA#4 nnn
  | .jpV0 nnn => nibbleAddr 0xB#4 nnn
  | .rnd x kk => nibblesByte 0xC#4 x kk
  | .drw x y n => nibbles 0xD#4 x y (BitVec.ofNat 4 n)
  | .skp x => nibblesByte 0xE#4 x 0x9E#8
  | .sknp x => nibblesByte 0xE#4 x 0xA1#8
  | .ldVxDt x => nibblesByte 0xF#4 x 0x07#8
  | .ldVxK x => nibblesByte 0xF#4 x 0x0A#8
  | .ldDtVx x => nibblesByte 0xF#4 x 0x15#8
  | .ldStVx x => nibblesByte 0xF#4 x 0x18#8
  | .addI x => nibblesByte 0xF#4 x 0x1E#8
  | .ldF x => nibblesByte 0xF#4 x 0x29#8
  | .ldB x => nibblesByte 0xF#4 x 0x33#8
  | .storeRegs x => nibblesByte 0xF#4 x 0x55#8
  | .loadRegs x => nibblesByte 0xF#4 x 0x65#8

/-- The byte of a word that lies at the lower address, bits 15:8 (20_memory.md R45). -/
def highByte (w : Word) : Byte := w.extractLsb' 8 8
/-- The byte of a word that lies at the higher address, bits 7:0 (20_memory.md R45). -/
def lowByte (w : Word) : Byte := w.extractLsb' 0 8

/-- The two bytes of an instruction, in memory order (R62). -/
def encode (i : Instr) : List Byte := [highByte (encodeWord i), lowByte (encodeWord i)]

/-! ### The opcode map as a table (R72) -/

/-- One row of R72: a word `w` selects the row when `w & mask = pattern` (the spec's column `match`). -/
structure OpcodeRow where
  mnemonic : String
  mask : Word
  pattern : Word
  deriving DecidableEq, Repr

/-- Whether a word selects a row (R72). -/
def OpcodeRow.selects (r : OpcodeRow) (w : Word) : Bool := w &&& r.mask == r.pattern

/-- The row of R72 that an instruction stands in. -/
def opcodeRow : Instr → OpcodeRow
  | .cls => ⟨"CLS", 0xFFFF#16, 0x00E0#16⟩
  | .ret => ⟨"RET", 0xFFFF#16, 0x00EE#16⟩
  | .jp _ => ⟨"JP_nnn", 0xF000#16, 0x1000#16⟩
  | .call _ => ⟨"CALL_nnn", 0xF000#16, 0x2000#16⟩
  | .seImm _ _ => ⟨"SE_Vx_kk", 0xF000#16, 0x3000#16⟩
  | .sneImm _ _ => ⟨"SNE_Vx_kk", 0xF000#16, 0x4000#16⟩
  | .seReg _ _ => ⟨"SE_Vx_Vy", 0xF000#16, 0x5000#16⟩
  | .ldImm _ _ => ⟨"LD_Vx_kk", 0xF000#16, 0x6000#16⟩
  | .addImm _ _ => ⟨"ADD_Vx_kk", 0xF000#16, 0x7000#16⟩
  | .ldReg _ _ => ⟨"LD_Vx_Vy", 0xF00F#16, 0x8000#16⟩
  | .orReg _ _ => ⟨"OR_Vx_Vy", 0xF00F#16, 0x8001#16⟩
  | .andReg _ _ => ⟨"AND_Vx_Vy", 0xF00F#16, 0x8002#16⟩
  | .xorReg _ _ => ⟨"XOR_Vx_Vy", 0xF00F#16, 0x8003#16⟩
  | .addReg _ _ => ⟨"ADD_Vx_Vy", 0xF00F#16, 0x8004#16⟩
  | .subReg _ _ => ⟨"SUB_Vx_Vy", 0xF00F#16, 0x8005#16⟩
  | .shr _ => ⟨"SHR_Vx", 0xF00F#16, 0x8006#16⟩
  | .subnReg _ _ => ⟨"SUBN_Vx_Vy", 0xF00F#16, 0x8007#16⟩
  | .shl _ => ⟨"SHL_Vx", 0xF00F#16, 0x800E#16⟩
  | .sneReg _ _ => ⟨"SNE_Vx_Vy", 0xF000#16, 0x9000#16⟩
  | .ldI _ => ⟨"LD_I_nnn", 0xF000#16, 0xA000#16⟩
  | .jpV0 _ => ⟨"JP_V0_nnn", 0xF000#16, 0xB000#16⟩
  | .rnd _ _ => ⟨"RND_Vx_kk", 0xF000#16, 0xC000#16⟩
  | .drw _ _ _ => ⟨"DRW_Vx_Vy_n", 0xF000#16, 0xD000#16⟩
  | .skp _ => ⟨"SKP_Vx", 0xF0FF#16, 0xE09E#16⟩
  | .sknp _ => ⟨"SKNP_Vx", 0xF0FF#16, 0xE0A1#16⟩
  | .ldVxDt _ => ⟨"LD_Vx_DT", 0xF0FF#16, 0xF007#16⟩
  | .ldVxK _ => ⟨"LD_Vx_K", 0xF0FF#16, 0xF00A#16⟩
  | .ldDtVx _ => ⟨"LD_DT_Vx", 0xF0FF#16, 0xF015#16⟩
  | .ldStVx _ => ⟨"LD_ST_Vx", 0xF0FF#16, 0xF018#16⟩
  | .addI _ => ⟨"ADD_I_Vx", 0xF0FF#16, 0xF01E#16⟩
  | .ldF _ => ⟨"LD_F_Vx", 0xF0FF#16, 0xF029#16⟩
  | .ldB _ => ⟨"LD_B_Vx", 0xF0FF#16, 0xF033#16⟩
  | .storeRegs _ => ⟨"LD__I__Vx", 0xF0FF#16, 0xF055#16⟩
  | .loadRegs _ => ⟨"LD_Vx__I", 0xF0FF#16, 0xF065#16⟩

/-- The 34 rows of R72, in its order: `opcodeRow` of one instruction of each. -/
def opcodeMap : List OpcodeRow :=
  ([.cls, .ret, .jp 0, .call 0, .seImm 0 0, .sneImm 0 0, .seReg 0 0, .ldImm 0 0, .addImm 0 0,
    .ldReg 0 0, .orReg 0 0, .andReg 0 0, .xorReg 0 0, .addReg 0 0, .subReg 0 0, .shr 0, .subnReg 0 0,
    .shl 0, .sneReg 0 0, .ldI 0, .jpV0 0, .rnd 0 0, .drw 0 0 0, .skp 0, .sknp 0, .ldVxDt 0, .ldVxK 0,
    .ldDtVx 0, .ldStVx 0, .addI 0, .ldF 0, .ldB 0, .storeRegs 0, .loadRegs 0] : List Instr).map opcodeRow

/-! ### The host's reading of a table word -/

/-- The instruction the decoder reads from the word `w` of a row of `nbits` bits, bit 0 the least significant of the
(one) word. The word is laid out big-endian and given to `decode`. -/
def decodeTableWord (nbits w : Nat) : Option Instr :=
  let word : Word := BitVec.ofNat 16 (w % 2 ^ nbits)
  match decode [highByte word, lowByte word] with
  | .ok (i, _) => some i
  | .error _ => none

end Sys2Proof
end

