-- ==== Sys2Proof/Machine/Event.lean ====
section
/-! DEFINITION. Sys2Proof/Machine/Event.lean: the actions of the agents and the forms of a schedule that never ends
(40_cycle.md R80, 60_exceptions.md R161). -/

namespace Sys2Proof.Machine

/-- One action of one agent (40_cycle.md R80): what a schedule is made of (log 1). -/
inductive Event where
  /-- The core makes a pass (R81). -/
  | pass
  /-- The timer engine ticks (60_exceptions.md R159). -/
  | tick
  /-- The host sets the 16 bits of KEY (20_memory.md R55). -/
  | setKeys (keys : BitVec 16)
  /-- The host sets the quit flag (R88). -/
  | setQuit
  /-- The host boots the machine: `reset()`, then `loadProgram(rom)` (70_reset_and_hazards.md R170). -/
  | boot (rom : List Byte)
  deriving DecidableEq, Repr, Inhabited

/-- What comes once the listed events are used up, for ever (log 1). -/
inductive Later where
  /-- The events of the list, in order, again and again; of the empty list, passes for ever. -/
  | repeating (events : List Event)
  /-- The free schedule from its `n`-th event on: it may be any schedule whatever (60_exceptions.md R161). -/
  | free (n : Nat)
  deriving DecidableEq, Repr

end Sys2Proof.Machine
end

