-- ==== Sys2Proof/Config.lean ====
section
/-! DEFINITION. Sys2Proof/Config.lean: the fixed parameters of 00_scope.md R4, and the free values of the
machine. -/

namespace Sys2Proof.Config

/-- `MEM_SIZE` (R4): bytes of main memory. -/
abbrev memSize : Nat := 4096

/-- `FONT_BASE` (R4): address of the first font byte. -/
abbrev fontBase : Nat := 0x050

/-- Bytes of the font table: 16 glyphs of `GLYPH_BYTES` each (R4). -/
abbrev fontBytes : Nat := 80

/-- `GLYPH_BYTES` (R4): bytes per font glyph. -/
abbrev glyphBytes : Nat := 5

/-- `PROG_BASE` (R4): load address of the program and initial program counter. -/
abbrev progBase : Nat := 0x200

/-- `MAX_ROM` (R4): the largest program in bytes. -/
abbrev maxRom : Nat := 3584

/-- `STACK_DEPTH` (R4): slots of the call stack. -/
abbrev stackDepth : Nat := 16

/-- The byte of the `n`-th draw from the random source where the supplied draws have run out. 42_alu.md R115: "the
model must admit every value 0 to 255 at every execution, independent of all state and of earlier draws". A FREE VALUE:
it has no body, so nothing can be proved of it (log 2). -/
opaque freeRnd : Nat → Byte

/-- The `n`-th event of the free schedule. 60_exceptions.md R161: the number of passes between two ticks "is any natural
number, zero included, and a model must admit every tick schedule"; the host's actions are as free (40_cycle.md R80). A
FREE VALUE: it has no body, so nothing can be proved of it, and what is proved of a run under it holds of every schedule
(log 1). -/
opaque freeEvent : Nat → Machine.Event

end Sys2Proof.Config
end

