-- ==== Sys2Proof/Machine/State.lean ====
section
/-! DEFINITION. Sys2Proof/Machine/State.lean: the state of the machine as plain data (10_state.md R10, R28), and reset
(10_state.md R31, 70_reset_and_hazards.md R167). -/

namespace Sys2Proof.Machine

/-- MODE, the control state of the cycle loop (R24). Not a privilege mode (60_exceptions.md R158). -/
inductive Mode where
  /-- RUNNING: a pass fetches and executes. -/
  | running
  /-- AWAIT_KEY: a pass polls the keypad latch (40_cycle.md R84). -/
  | awaitKey
  /-- HALTED: there is no pass (40_cycle.md R85). -/
  | halted
  deriving DecidableEq, Repr

/-- The failure kinds of 60_exceptions.md R145. -/
inductive FailureKind where
  /-- ROM_LOAD_FAILURE (R151) -/
  | romLoadFailure
  /-- DECODE_FAILURE (R147) -/
  | decodeFailure
  /-- STACK_OVERFLOW (R148) -/
  | stackOverflow
  /-- STACK_UNDERFLOW (R149) -/
  | stackUnderflow
  /-- ADDRESS_OUT_OF_RANGE (R146) -/
  | addressOutOfRange
  /-- KEY_INDEX_OUT_OF_RANGE (R150) -/
  | keyIndexOutOfRange
  deriving DecidableEq, Repr

/-- FAULT, the record of the failure that halted the machine (R25, 60_exceptions.md R152). `word` is absent for a
fetch failure; `addr` is absent only for ROM_LOAD_FAILURE, where no instruction is at fault (log 17). -/
structure FaultRecord where
  kind : FailureKind
  word : Option Word
  addr : Option Word
  deriving DecidableEq, Repr

/-- Main memory: the cells that differ from their boot contents, as (address, byte) pairs (log 8). -/
abbrev Memory := List Host.Cell

/-- The framebuffer: row, then column, `true` = on (R27). Row 0 is the top, column 0 the left. -/
abbrev Framebuffer := Vector (Vector Bool 64) 32

/-- The state. The first thirteen fields are the complete state of R10; the next five are the inputs of R28, which the
core reads and does not own; `font` is the parameter FONT (00_scope.md R5), constant along every run; `drawn` is the
model's own: the number of bytes the random source has delivered (log 2). -/
structure State where
  /-- V0 to VF (R11); VF is also the flag (R13). -/
  v : Vector Byte 16
  /-- I, the index register (R19). -/
  idx : Word
  /-- The program counter (R15). -/
  pc : Word
  /-- SP, the number of return addresses held, 0 to 16 (R20, R21). -/
  sp : Fin 17
  /-- STK, the call stack (R20). -/
  stk : Vector Word 16
  /-- DT, the delay timer (R22). -/
  dt : Byte
  /-- ST, the sound timer (R22). -/
  st : Byte
  /-- IR, the currently fetched instruction word (R23). -/
  ir : Word
  /-- MODE (R24). -/
  mode : Mode
  /-- KREG, the destination of a pending key wait (R24). -/
  kreg : Reg
  /-- FAULT (R25). -/
  fault : Option FaultRecord
  /-- MEM (R26). -/
  mem : Memory
  /-- FB (R27). -/
  fb : Framebuffer
  /-- KEY, bit `k` is key `k`, 1 = pressed (R28). -/
  keys : BitVec 16
  /-- The quit flag (R28, 40_cycle.md R88). -/
  quit : Bool
  /-- The bytes the random source will deliver next; free values follow (R28, 42_alu.md R115). -/
  draws : List Byte
  /-- The events to come next, first first (40_cycle.md R80; log 1). -/
  agenda : List Event
  /-- What comes after them, for ever (60_exceptions.md R161; log 1). -/
  later : Later
  /-- FONT (70_reset_and_hazards.md R168). -/
  font : Vector Byte 80
  /-- How many bytes the random source has delivered: the index of the next free draw. -/
  drawn : Nat
  deriving DecidableEq, Repr

/-- Why no step exists. Raised by `corePass` alone, never by an instruction: a failure of an instruction is a next
state (60_exceptions.md R144). Both are safe: the machine makes no further pass. -/
inductive Fault where
  /-- MODE is HALTED: "there is no pass" until the host boots the machine (40_cycle.md R85). Safe. -/
  | halted
  /-- The host has set quit: "the cycle loop performs no further pass" (40_cycle.md R88). Safe. -/
  | quit
  deriving DecidableEq, Repr

/-- Why an instruction has no meaning. No arm of `exec` raises it. -/
inductive Refusal where
  /-- The instruction of this mnemonic is not modelled yet. Raised by arms of `exec` alone. Safe. -/
  | notModelled (mnemonic : String)
  deriving DecidableEq, Repr

/-- The outcome of a step or of an instruction. -/
abbrev Result := Host.Outcome State Fault Refusal

/-- All pixels off (R27, 44_display.md R127). -/
def blankFramebuffer : Framebuffer := Vector.replicate 32 (Vector.replicate 64 false)

/-- The machine right after `reset()` (70_reset_and_hazards.md R167), with the boot values of R31. `v`, `idx`, `sp`,
`dt`, `st`, `mode`, `fault` are the spec's decision D2 (log 4); `stk`, `ir`, `kreg` are unspecified there and the
model's choice (log 5); the inputs are the model's choice (log 6); `font` is the default of R168 (log 3). `mem` lists
nothing: every cell holds its boot contents (log 8). -/
def State.reset : State where
  v := Vector.replicate 16 0x00#8
  idx := 0x0000#16
  pc := 0x0200#16
  sp := 0
  stk := Vector.replicate 16 0x0000#16
  dt := 0x00#8
  st := 0x00#8
  ir := 0x0000#16
  mode := .running
  kreg := 0
  fault := none
  mem := []
  fb := blankFramebuffer
  keys := 0x0000#16
  quit := false
  draws := []
  agenda := []
  later := .repeating []
  font := defaultFont
  drawn := 0

end Sys2Proof.Machine
end

