-- ==== Sys2Proof/Machine/Ops.lean ====
section
/-! DEFINITION. Sys2Proof/Machine/Ops.lean: the named operations over registers, stack, memory and inputs, taking a
failure, and boot. -/

namespace Sys2Proof.Machine

/-! ### Registers (10_state.md) -/

/-- `V[x]` (00_scope.md R7). No register is hardwired (R12). -/
def State.reg (s : State) (x : Reg) : Byte := s.v[x.val]'x.isLt

/-- `V[x] <- b` (R7). -/
def State.setReg (s : State) (x : Reg) (b : Byte) : State := { s with v := s.v.set x.val b x.isLt }

/-- `I <- w` (R7). -/
def State.setIdx (s : State) (w : Word) : State := { s with idx := w }

/-- `pc <- w` (R7). -/
def State.setPc (s : State) (w : Word) : State := { s with pc := w }

/-- `DT <- b` (R7). -/
def State.setDt (s : State) (b : Byte) : State := { s with dt := b }

/-- `ST <- b` (R7). -/
def State.setSt (s : State) (b : Byte) : State := { s with st := b }

/-- `FB <- fb`. -/
def State.setFb (s : State) (fb : Framebuffer) : State := { s with fb := fb }

/-- `MEM <- mem`. -/
def State.setMem (s : State) (mem : Memory) : State := { s with mem := mem }

/-- Enter AWAIT_KEY with destination `x`: `KREG <- x; MODE <- AWAIT_KEY` (45_keypad_timers.md R138). -/
def State.awaitKeyInto (s : State) (x : Reg) : State := { s with kreg := x, mode := .awaitKey }

/-- `MODE <- RUNNING` (40_cycle.md R84). -/
def State.resume (s : State) : State := { s with mode := .running }

/-- A flag and a result of one instruction: the flag first, the result second, so that with `x = 15` the result is what
VF holds (10_state.md R14, 42_alu.md R116, D3; log 12). -/
def State.setFlagAndReg (s : State) (flag : Byte) (x : Reg) (b : Byte) : State := (s.setReg VF flag).setReg x b

/-- `V[k] <- b` for the bytes `b` of a list, `k` rising from the given index (43_index_memory.md R124). -/
def setRegsFrom : Nat → List Byte → Vector Byte 16 → Vector Byte 16
  | _, [], v => v
  | k, b :: bs, v => setRegsFrom (k + 1) bs (v.setIfInBounds k b)

/-- `V[0], V[1], … <- bs` (R124). -/
def State.loadRegs (s : State) (bs : List Byte) : State := { s with v := setRegsFrom 0 bs s.v }

/-- `[V[0], V[1], …, V[x]]` (R123). -/
def State.regsUpTo (s : State) (x : Reg) : List Byte := s.v.toList.take (x.val + 1)

/-! ### The call stack (10_state.md R20, R21) -/

/-- Push a return address: `STK[SP] <- w; SP <- SP + 1`; `none` when SP is 16. -/
def State.push (s : State) (w : Word) : Option State :=
  if h : s.sp.val < 16 then
    some { s with stk := s.stk.set s.sp.val w h, sp := ⟨s.sp.val + 1, by omega⟩ }
  else none

/-- Pop a return address: `SP <- SP - 1`, and the slot just popped, which keeps its value (R20, D30); `none` when SP
is 0. -/
def State.pop (s : State) : Option (Word × State) :=
  if h : 0 < s.sp.val then
    some (s.stk[s.sp.val - 1]'(by omega), { s with sp := ⟨s.sp.val - 1, by omega⟩ })
  else none

/-! ### Memory (20_memory.md) -/

/-- What a cell holds at boot, and so what an address that `State.mem` does not list reads as: the font table at 0x050
to 0x09F, zero elsewhere (R51). -/
def bootByte (font : Vector Byte 80) (a : Nat) : Byte :=
  if h : Config.fontBase ≤ a ∧ a < Config.fontBase + Config.fontBytes then
    font[a - Config.fontBase]'(by unfold Config.fontBase Config.fontBytes at *; omega)
  else 0x00#8

/-- The byte at an address, where `base` gives the contents of unlisted addresses. -/
def Memory.readByte (base : Nat → Byte) : Memory → Nat → Byte
  | [], a => base a
  | (k, c) :: m, a => if a = k then c else Memory.readByte base m a

/-- The memory without an entry for an address. -/
def Memory.erase (m : Memory) (a : Nat) : Memory := m.filter fun c => c.1 != a

/-- The memory with an entry put before the first entry of a higher address. -/
def Memory.insert : Memory → Nat → Byte → Memory
  | [], a, b => [(a, b)]
  | (k, c) :: m, a, b => if a < k then (a, b) :: (k, c) :: m else (k, c) :: Memory.insert m a b

/-- Store one byte, keeping the canonical form: storing what an unlisted address reads as leaves the address unlisted
(log 8). -/
def Memory.writeByte (base : Nat → Byte) (m : Memory) (a : Nat) (b : Byte) : Memory :=
  if b = base a then Memory.erase m a else Memory.insert (Memory.erase m a) a b

/-- Store the bytes of a list at rising addresses from `a`. -/
def Memory.writeBytes (base : Nat → Byte) : Memory → Nat → List Byte → Memory
  | m, _, [] => m
  | m, a, b :: bs => Memory.writeBytes base (Memory.writeByte base m a b) (a + 1) bs

/-- The canonical form from address `lo` upward: addresses strictly rising and below 4096, no entry equal to the
unlisted contents. -/
def Memory.wfFrom (base : Nat → Byte) : Nat → Memory → Bool
  | _, [] => true
  | lo, (k, c) :: m => decide (lo ≤ k) && decide (k < Config.memSize) && !(c == base k) && Memory.wfFrom base (k + 1) m

/-- The canonical form of a memory. -/
def Memory.wf (base : Nat → Byte) (m : Memory) : Bool := Memory.wfFrom base 0 m

/-- `MEM[a]`. -/
def State.readByte (s : State) (a : Nat) : Byte := Memory.readByte (bootByte s.font) s.mem a

/-- The range check of `MemRead` and `MemWrite`: an access of `n` bytes at `addr` touches no byte at or above 4096.
An access of no byte always passes (R42, R43). -/
def accessOk (addr n : Nat) : Bool := n == 0 || decide (addr + n - 1 ≤ 4095)

/-- `MemRead(addr, n)` (R42): the bytes, or `none` for ADDRESS_OUT_OF_RANGE; all or nothing (R44). -/
def State.memRead (s : State) (addr n : Nat) : Option (List Byte) :=
  if accessOk addr n then some ((List.range n).map fun k => s.readByte (addr + k)) else none

/-- `MemWrite(addr, n, v)` (R43) with `n` the length of the list: the state after, or `none` for ADDRESS_OUT_OF_RANGE;
all or nothing (R44). -/
def State.memWrite (s : State) (addr : Nat) (bs : List Byte) : Option State :=
  if accessOk addr bs.length then some (s.setMem (Memory.writeBytes (bootByte s.font) s.mem addr bs)) else none

/-! ### Inputs (10_state.md R28) -/

/-- `KeyRead(k)` (45_keypad_timers.md R135): whether key `k` is pressed; `none` for KEY_INDEX_OUT_OF_RANGE. -/
def State.keyRead (s : State) (k : Byte) : Option Bool :=
  if k.toNat > 15 then none else some (s.keys.getLsbD k.toNat)

/-- The smallest index of a pressed key (R139, D11; log 13). -/
def lowestKey (keys : BitVec 16) : Option Reg := (List.finRange 16).find? fun k => keys.getLsbD k.val

/-- One byte from the random source (42_alu.md R115): the next supplied one, else a free value (log 2). -/
def State.draw (s : State) : Byte × State :=
  match s.draws with
  | r :: rest => (r, { s with draws := rest, drawn := s.drawn + 1 })
  | [] => (Config.freeRnd s.drawn, { s with drawn := s.drawn + 1 })

/-- The framebuffer read-out of 44_display.md R134: pixel (x, y) as it stands between two passes. -/
def State.readOut (s : State) (x : Fin 64) (y : Fin 32) : Bool := (s.fb[y.val]'y.isLt)[x.val]'x.isLt

/-! ### Taking a failure (60_exceptions.md R144, R152, R154) -/

/-- The code of a failure kind (R145, D8). -/
def FailureKind.code : FailureKind → Nat
  | .romLoadFailure => 1
  | .decodeFailure => 2
  | .stackOverflow => 3
  | .stackUnderflow => 4
  | .addressOutOfRange => 5
  | .keyIndexOutOfRange => 6

/-- The halt of R144 in a state whose pc is the address of the offending instruction:
`FAULT <- {kind, word, addr}; MODE <- HALTED`, nothing else changed. -/
def State.halt (s : State) (kind : FailureKind) (word : Option Word) : State :=
  { s with mode := .halted, fault := some { kind := kind, word := word, addr := some s.pc } }

/-- `raise K(word = IR, addr = a)` inside an instruction, where pc is `a + 2` (40_cycle.md R83): pc goes back to `a`
and the machine halts (R91, R144, R152). -/
def State.raise (s : State) (kind : FailureKind) : Result :=
  .next ((s.setPc (s.pc - 2#16)).halt kind (some s.ir))

/-- The state an operation gave, or the failure it raised. -/
def State.nextOr (s : State) (kind : FailureKind) : Option State → Result
  | some t => .next t
  | none => s.raise kind

/-- The commit rule of R91 for a pass that began in `before` and whose instruction answered `r`: when it halted, every
component keeps its value but MODE and FAULT. -/
def settle (before : State) (r : Result) : Result :=
  match r with
  | .next t => if t.mode = .halted then .next { before with mode := t.mode, fault := t.fault } else .next t
  | .fault f => .fault f
  | .refused q => .refused q

/-! ### Boot: the only way out of HALTED (60_exceptions.md R155, 70_reset_and_hazards.md R167 to R170) -/

/-- `reset()` (R167): every component of R10 at its boot value. FONT is the machine's parameter; KEY, quit and the
other inputs are not core state and stay (log 22). -/
def State.hostReset (s : State) : State :=
  { State.reset with
    font := s.font, keys := s.keys, quit := s.quit, draws := s.draws, agenda := s.agenda, later := s.later
    drawn := s.drawn }

/-- `loadProgram(rom)` (R169): ROM_LOAD_FAILURE when the program is longer than 3584 bytes, with no cell changed and
the machine not started (R151; log 17); else the bytes at 0x200. -/
def State.loadProgram (s : State) (rom : List Byte) : State :=
  if rom.length > Config.maxRom then
    { s with mode := .halted, fault := some { kind := .romLoadFailure, word := none, addr := none } }
  else s.setMem (Memory.writeBytes (bootByte s.font) s.mem Config.progBase rom)

/-- Boot order (R170): reset, then load. -/
def State.boot (s : State) (rom : List Byte) : State := s.hostReset.loadProgram rom

end Sys2Proof.Machine
end

