-- ==== Sys2Proof/Machine/Flags.lean ====
section
/-! DEFINITION. Sys2Proof/Machine/Flags.lean: what VF receives (10_state.md R13) and the arithmetic of 42_alu.md R103. -/

namespace Sys2Proof.Machine

/-- A flag write stores the byte 0x00 or 0x01 (R13). -/
def flagByte (f : Bool) : Byte := if f then 0x01#8 else 0x00#8

/-- Carry of an addition: the true sum exceeds 255 (R110). -/
def carryFlag (a b : Byte) : Byte := flagByte (decide (a.toNat + b.toNat > 255))

/-- Strictly greater: the flag of `SUB` on `(V[x], V[y])` and of `SUBN` on `(V[y], V[x])` (R111, R113, D28). -/
def greaterFlag (a b : Byte) : Byte := flagByte (decide (a.toNat > b.toNat))

/-- The bit that a right shift by one pushes out (R112). -/
def lowBitFlag (a : Byte) : Byte := flagByte (a.getLsbD 0)

/-- The bit that a left shift by one pushes out (R114). -/
def highBitFlag (a : Byte) : Byte := flagByte (a.getLsbD 7)

/-- `(a + b) mod 256` (R103). -/
def addByte (a b : Byte) : Byte := BitVec.ofNat 8 (a.toNat + b.toNat)

/-- `(a - b) mod 256`: `a - b` when `a >= b`, `a - b + 256` when `a < b` (R103). -/
def subByte (a b : Byte) : Byte := BitVec.ofNat 8 (a.toNat + 256 - b.toNat)

end Sys2Proof.Machine
end

