-- ==== Sys2Proof/Machine/Alu.lean ====
section
/-! DEFINITION. Sys2Proof/Machine/Alu.lean: register and ALU instructions (42_alu.md). Operands are the register
values from before the instruction (10_state.md R14). -/

namespace Sys2Proof.Machine

/-- `LD Vx,kk` (R104). -/
def execLdImm (x : Reg) (kk : Byte) (s : State) : Result := .next (s.setReg x kk)

/-- `ADD Vx,kk` (R105): no flag. -/
def execAddImm (x : Reg) (kk : Byte) (s : State) : Result := .next (s.setReg x (addByte (s.reg x) kk))

/-- `LD Vx,Vy` (R106). -/
def execLdReg (x y : Reg) (s : State) : Result := .next (s.setReg x (s.reg y))

/-- `OR Vx,Vy` (R107): VF unchanged (D36). -/
def execOrReg (x y : Reg) (s : State) : Result := .next (s.setReg x (s.reg x ||| s.reg y))

/-- `AND Vx,Vy` (R108): VF unchanged (D36). -/
def execAndReg (x y : Reg) (s : State) : Result := .next (s.setReg x (s.reg x &&& s.reg y))

/-- `XOR Vx,Vy` (R109): VF unchanged (D36). -/
def execXorReg (x y : Reg) (s : State) : Result := .next (s.setReg x (s.reg x ^^^ s.reg y))

/-- `ADD Vx,Vy` (R110): VF = carry. -/
def execAddReg (x y : Reg) (s : State) : Result :=
  .next (s.setFlagAndReg (carryFlag (s.reg x) (s.reg y)) x (addByte (s.reg x) (s.reg y)))

/-- `SUB Vx,Vy` (R111): VF = strictly greater. -/
def execSubReg (x y : Reg) (s : State) : Result :=
  .next (s.setFlagAndReg (greaterFlag (s.reg x) (s.reg y)) x (subByte (s.reg x) (s.reg y)))

/-- `SHR Vx` (R112): VF = the bit shifted out. -/
def execShr (x : Reg) (s : State) : Result :=
  .next (s.setFlagAndReg (lowBitFlag (s.reg x)) x (s.reg x >>> 1))

/-- `SUBN Vx,Vy` (R113): VF = `V[y]` strictly greater. -/
def execSubnReg (x y : Reg) (s : State) : Result :=
  .next (s.setFlagAndReg (greaterFlag (s.reg y) (s.reg x)) x (subByte (s.reg y) (s.reg x)))

/-- `SHL Vx` (R114): VF = the bit shifted out. -/
def execShl (x : Reg) (s : State) : Result :=
  .next (s.setFlagAndReg (highBitFlag (s.reg x)) x (s.reg x <<< 1))

/-- `RND Vx,kk` (R115): a fresh byte of the random source under a mask (log 2). -/
def execRnd (x : Reg) (kk : Byte) (s : State) : Result :=
  .next (s.draw.2.setReg x (s.draw.1 &&& kk))

end Sys2Proof.Machine
end

