-- ==== Sys2Proof/Machine/Operands.lean ====
section
/-! DEFINITION. Sys2Proof/Machine/Operands.lean: the operand forms (30_encoding.md R65, 43_index_memory.md R118). -/

namespace Sys2Proof.Machine

/-- `zext_16(nnn)`: a 12-bit address as a 16-bit value (R65). -/
def addrOperand (nnn : BitVec 12) : Word := nnn.setWidth 16

/-- `zext_16(b)`: a byte as a 16-bit value (R65). -/
def byteOperand (b : Byte) : Word := b.setWidth 16

/-- The effective address of the first byte of an access through I, as an integer, unmasked (R118). Byte `k` of the
access is at this address plus `k`. -/
def State.dataAddr (s : State) : Nat := s.idx.toNat

/-- `FONT_BASE + GLYPH_BYTES * b` for the whole byte `b` (43_index_memory.md R121, D23; log 16). -/
def glyphAddr (b : Byte) : Word := BitVec.ofNat 16 (Config.fontBase + Config.glyphBytes * b.toNat)

/-- The decimal digits of a byte: hundreds, tens, ones (43_index_memory.md R122). -/
def bcdDigits (b : Byte) : List Byte :=
  [BitVec.ofNat 8 (b.toNat / 100), BitVec.ofNat 8 (b.toNat / 10 % 10), BitVec.ofNat 8 (b.toNat % 10)]

/-- `I + zext_16(b)` where it fits 16 bits, else `none` (43_index_memory.md R120, D9; log 11). -/
def idxPlus (w : Word) (b : Byte) : Option Word :=
  if w.toNat + b.toNat > 0xFFFF then none else some (BitVec.ofNat 16 (w.toNat + b.toNat))

end Sys2Proof.Machine
end

