-- ==== Sys2Proof/Machine/Control.lean ====
section
/-! DEFINITION. Sys2Proof/Machine/Control.lean: control transfer (41_control.md). On entry pc is the address of the
instruction plus 2 (40_cycle.md R82). -/

namespace Sys2Proof.Machine

/-- Skip the next instruction when `c` holds: `pc <- pc + 2` (R93). -/
def State.skipIf (s : State) (c : Bool) : Result := .next (if c then s.setPc (s.pc + 2#16) else s)

/-- `RET` (R94). -/
def execRet (s : State) : Result :=
  s.nextOr .stackUnderflow (s.pop.map fun p => p.2.setPc p.1)

/-- `JP nnn` (R95). -/
def execJp (nnn : BitVec 12) (s : State) : Result := .next (s.setPc (addrOperand nnn))

/-- `CALL nnn` (R96): the pushed value is pc, the instruction after the call. -/
def execCall (nnn : BitVec 12) (s : State) : Result :=
  s.nextOr .stackOverflow ((s.push s.pc).map fun t => t.setPc (addrOperand nnn))

/-- `SE Vx,kk` (R97). -/
def execSeImm (x : Reg) (kk : Byte) (s : State) : Result := s.skipIf (s.reg x == kk)

/-- `SNE Vx,kk` (R98). -/
def execSneImm (x : Reg) (kk : Byte) (s : State) : Result := s.skipIf (s.reg x != kk)

/-- `SE Vx,Vy` (R99). -/
def execSeReg (x y : Reg) (s : State) : Result := s.skipIf (s.reg x == s.reg y)

/-- `SNE Vx,Vy` (R100). -/
def execSneReg (x y : Reg) (s : State) : Result := s.skipIf (s.reg x != s.reg y)

/-- `JP V0,nnn` (R101): the 16-bit sum, no masking (D24; log 16). -/
def execJpV0 (nnn : BitVec 12) (s : State) : Result :=
  .next (s.setPc (byteOperand (s.reg 0) + addrOperand nnn))

end Sys2Proof.Machine
end

