-- ==== Sys2Proof/Machine/Blitter.lean ====
section
/-! DEFINITION. Sys2Proof/Machine/Blitter.lean: the sprite blitter on a framebuffer (44_display.md R128 to R131). -/

namespace Sys2Proof.Machine

/-- The column a sprite bit lands on: `(px + c) mod 64` (R130). -/
def wrapColumn (px c : Nat) : Fin 64 := ⟨(px + c) % 64, Nat.mod_lt _ (by decide)⟩

/-- The row a sprite bit lands on: `(py + r) mod 32` (R130). -/
def wrapRow (py r : Nat) : Fin 32 := ⟨(py + r) % 32, Nat.mod_lt _ (by decide)⟩

/-- `FB[y][x]`. -/
def Framebuffer.pixel (fb : Framebuffer) (x : Fin 64) (y : Fin 32) : Bool := (fb[y.val]'y.isLt)[x.val]'x.isLt

/-- `FB[y][x] <- FB[y][x] ^ 1`. -/
def Framebuffer.flip (fb : Framebuffer) (x : Fin 64) (y : Fin 32) : Framebuffer :=
  fb.set y.val ((fb[y.val]'y.isLt).set x.val (!(Framebuffer.pixel fb x y)) x.isLt) y.isLt

/-- What a draw has done so far: the framebuffer, and whether a pixel went from on to off (R131). -/
structure Drawing where
  fb : Framebuffer
  collision : Bool
  deriving DecidableEq, Repr

/-- Draw one set sprite bit, row `r` and column `c` of the sprite (R128, R130, R131). -/
def drawBit (px py r c : Nat) (d : Drawing) : Drawing :=
  let x := wrapColumn px c
  let y := wrapRow py r
  { fb := Framebuffer.flip d.fb x y, collision := d.collision || Framebuffer.pixel d.fb x y }

/-- Bit 7 of a sprite byte is column 0 (R129). -/
def spriteBit (b : Byte) (c : Nat) : Bool := b.getLsbD (7 - c)

/-- Draw one sprite row: its eight bits from left to right, a 0 bit draws nothing (R128, R129). -/
def drawRow (px py r : Nat) (b : Byte) (d : Drawing) : Drawing :=
  (List.range 8).foldl (fun d c => if spriteBit b c then drawBit px py r c d else d) d

/-- Draw sprite rows from row `r` downward (R128). -/
def drawRows (px py : Nat) : Nat → List Byte → Drawing → Drawing
  | _, [], d => d
  | r, b :: bs, d => drawRows px py (r + 1) bs (drawRow px py r b d)

/-- Draw a sprite with its top left pixel at `(px, py)` (R128). -/
def drawSprite (px py : Nat) (rows : List Byte) (fb : Framebuffer) : Drawing :=
  drawRows px py 0 rows { fb := fb, collision := false }

end Sys2Proof.Machine
end

