-- ==== Sys2Proof/Machine/Display.lean ====
section
/-! DEFINITION. Sys2Proof/Machine/Display.lean: display instructions (44_display.md). -/

namespace Sys2Proof.Machine

/-- `CLS` (R127). -/
def execCls (s : State) : Result := .next (s.setFb blankFramebuffer)

/-- `DRW Vx,Vy,n` (R128): the position is latched and the rows are read before anything is written; VF is written
last, also when nothing was drawn (R133). -/
def execDrw (x y : Reg) (n : Nat) (s : State) : Result :=
  s.nextOr .addressOutOfRange ((s.memRead s.dataAddr n).map fun rows =>
    let d := drawSprite (s.reg x).toNat (s.reg y).toNat rows s.fb
    (s.setFb d.fb).setReg VF (flagByte d.collision))

end Sys2Proof.Machine
end

