-- ==== Sys2Proof/Machine/IndexMemory.lean ====
section
/-! DEFINITION. Sys2Proof/Machine/IndexMemory.lean: index register and memory instructions (43_index_memory.md). No
memory access changes I (R125). -/

namespace Sys2Proof.Machine

/-- `LD I,nnn` (R119). -/
def execLdI (nnn : BitVec 12) (s : State) : Result := .next (s.setIdx (addrOperand nnn))

/-- `ADD I,Vx` (R120): fails when the sum does not fit 16 bits. -/
def execAddI (x : Reg) (s : State) : Result :=
  s.nextOr .addressOutOfRange ((idxPlus s.idx (s.reg x)).map s.setIdx)

/-- `LD F,Vx` (R121). -/
def execLdF (x : Reg) (s : State) : Result := .next (s.setIdx (glyphAddr (s.reg x)))

/-- `LD B,Vx` (R122). -/
def execLdB (x : Reg) (s : State) : Result :=
  s.nextOr .addressOutOfRange (s.memWrite s.dataAddr (bcdDigits (s.reg x)))

/-- `LD [I],Vx` (R123). -/
def execStoreRegs (x : Reg) (s : State) : Result :=
  s.nextOr .addressOutOfRange (s.memWrite s.dataAddr (s.regsUpTo x))

/-- `LD Vx,[I]` (R124): all bytes are read before any register is written. -/
def execLoadRegs (x : Reg) (s : State) : Result :=
  s.nextOr .addressOutOfRange ((s.memRead s.dataAddr (x.val + 1)).map s.loadRegs)

end Sys2Proof.Machine
end

