-- ==== Sys2Proof/Machine/KeypadTimers.lean ====
section
/-! DEFINITION. Sys2Proof/Machine/KeypadTimers.lean: keypad and timer instructions (45_keypad_timers.md). -/

namespace Sys2Proof.Machine

/-- Skip when key `k` reads as `wanted`; KEY_INDEX_OUT_OF_RANGE when there is no such key (R135). -/
def State.skipIfKey (s : State) (k : Byte) (wanted : Bool) : Result :=
  match s.keyRead k with
  | some pressed => s.skipIf (pressed == wanted)
  | none => s.raise .keyIndexOutOfRange

/-- `SKP Vx` (R136). -/
def execSkp (x : Reg) (s : State) : Result := s.skipIfKey (s.reg x) true

/-- `SKNP Vx` (R137). -/
def execSknp (x : Reg) (s : State) : Result := s.skipIfKey (s.reg x) false

/-- `LD Vx,K` (R138): its own pass only enters AWAIT_KEY (D12; log 13). -/
def execLdVxK (x : Reg) (s : State) : Result := .next (s.awaitKeyInto x)

/-- `LD Vx,DT` (R140). -/
def execLdVxDt (x : Reg) (s : State) : Result := .next (s.setReg x s.dt)

/-- `LD DT,Vx` (R141). -/
def execLdDtVx (x : Reg) (s : State) : Result := .next (s.setDt (s.reg x))

/-- `LD ST,Vx` (R142). -/
def execLdStVx (x : Reg) (s : State) : Result := .next (s.setSt (s.reg x))

end Sys2Proof.Machine
end

