-- ==== Sys2Proof/Machine/Cycle.lean ====
section
/-! DEFINITION. Sys2Proof/Machine/Cycle.lean: passes, ticks and host events (40_cycle.md, 60_exceptions.md R159). -/

namespace Sys2Proof.Machine

/-- The word at pc, big-endian (R82, 20_memory.md R45); `none` when a byte of it lies at or above 4096. -/
def State.fetchWord (s : State) : Option Word :=
  match s.memRead s.pc.toNat 2 with
  | some [b0, b1] => some (wordOfBytes b0 b1)
  | _ => none

/-- The state an instruction runs in: `IR <- w; pc <- pc + 2` (R82). -/
def State.fetched (s : State) (w : Word) : State := { s with ir := w, pc := s.pc + 2#16 }

/-- A RUNNING pass: fetch, decode, execute, commit (R81 to R83, R91). The checks come in the order of
60_exceptions.md R153. -/
def runningPass (s : State) : Result :=
  match s.fetchWord with
  | none => .next (s.halt .addressOutOfRange none)
  | some w =>
    match decodeWord w with
    | .error _ => .next (s.halt .decodeFailure (some w))
    | .ok i => settle s (exec i (s.fetched w))

/-- A key-wait pass (R84): the smallest pressed key goes to `V[KREG]` and the machine runs again; with no key pressed
nothing changes. No fetch, and pc does not move. -/
def keyWaitPass (s : State) : State :=
  match lowestKey s.keys with
  | some k => (s.setReg s.kreg (BitVec.ofNat 8 k.val)).resume
  | none => s

/-- What the core does when it is its turn (R81, R85, R88). -/
def corePass (s : State) : Result :=
  match s.mode with
  | .halted => .fault .halted
  | .awaitKey => if s.quit then .fault .quit else .next (keyWaitPass s)
  | .running => if s.quit then .fault .quit else runningPass s

/-- A timer one tick later: one less, stopping at zero (R159, R160). -/
def decayed (t : Byte) : Byte := if t.toNat > 0 then t - 1#8 else t

/-- A tick (R159); none happens in HALTED (R162, D35; log 18). -/
def tick (s : State) : State :=
  if s.mode = .halted then s else (s.setDt (decayed s.dt)).setSt (decayed s.st)

/-- One action of one agent (R80). -/
def act (e : Event) (s : State) : Result :=
  match e with
  | .pass => corePass s
  | .tick => .next (tick s)
  | .setKeys keys => .next { s with keys := keys }
  | .setQuit => .next { s with quit := true }
  | .boot rom => .next (s.boot rom)

/-- The first event of what comes later. -/
def Later.first : Later → Event
  | .repeating [] => .pass
  | .repeating (e :: _) => e
  | .free n => Config.freeEvent n

/-- The event that comes next: the first of the agenda, or of what comes later (R80; log 1). -/
def State.nextEvent (s : State) : Event :=
  match s.agenda with
  | [] => s.later.first
  | e :: _ => e

/-- The schedule after its next event: a repeated list is laid out again, and the free schedule moves on by one. -/
def State.scheduleRest (s : State) : List Event × Later :=
  match s.agenda with
  | _ :: rest => (rest, s.later)
  | [] =>
    match s.later with
    | .repeating [] => ([], .repeating [])
    | .repeating (e :: es) => (es, .repeating (e :: es))
    | .free n => ([], .free (n + 1))

/-- The state in which the next event, a pass or another, begins: the schedule is past that event. -/
def State.atPass (s : State) : State := { s with agenda := s.scheduleRest.1, later := s.scheduleRest.2 }

/-- One step: the next event of the schedule (R80; log 1). -/
def cycleStep (s : State) : Result := act s.nextEvent s.atPass

/-- Where a fetch reads: pc, or the entry point 0x200 where pc is past the last word of memory (R82). -/
def State.fetchAddr (s : State) : Word := if s.pc.toNat ≤ 0xFFE then s.pc else 0x0200#16

/-- `s` with a word placed where the next step fetches, and with all that makes the next step a RUNNING pass: MODE
RUNNING, no quit, a pass first in the schedule, pc on a fetchable address (log 20). -/
def State.placeFetch (s : State) (w : Word) : State :=
  let t : State :=
    { s with
      pc := s.fetchAddr, mode := .running, quit := false
      agenda := match s.agenda, s.later with
        | [], .repeating [] => []
        | es, _ => .pass :: es }
  t.setMem (Memory.writeBytes (bootByte t.font) t.mem t.pc.toNat [highByte w, lowByte w])

end Sys2Proof.Machine
end

