-- ==== Sys2Proof/Machine/Step.lean ====
section
/-! DEFINITION. Sys2Proof/Machine/Step.lean: the step of the machine (40_cycle.md R80, R81). -/

namespace Sys2Proof.Machine

/-- One step: one action of one agent. -/
def step (s : State) : Host.Outcome State Fault Refusal := Sys2Proof.Machine.cycleStep s

/-- `s` with the instruction word `w` of `nbits` bits stored where the next step fetches it (log 20). -/
def State.withFetchWord (s : State) (nbits w : Nat) : State := s.placeFetch (BitVec.ofNat 16 (w % 2 ^ nbits))

end Sys2Proof.Machine
end

