-- ==== Sys2Proof/Safety.lean ====
section
/-! DEFINITION. Sys2Proof/Safety.lean: what a good state is, what a step runs, and what an instruction leaves alone, in
the terms the statements use. -/

namespace Sys2Proof.Machine

/-! ### Invariants -/

/-- The memory keeps its canonical form (log 8). -/
def State.MemWf (s : State) : Prop := Memory.wf (bootByte s.font) s.mem = true

/-- FAULT holds a record exactly in HALTED (10_state.md R25). -/
def State.FaultIffHalted (s : State) : Prop := s.fault.isSome = true ↔ s.mode = .halted

/-- pc stays in the range of 10_state.md R18: at most 0x10FE, so 16-bit wrap-around never happens. -/
def State.PcInRange (s : State) : Prop := s.pc.toNat ≤ 0x10FE

/-- Every live slot of the call stack holds what a `CALL` pushed: 0x0002 to 0x1000 (41_control.md R94). -/
def State.LiveSlotsInRange (s : State) : Prop :=
  ∀ k : Fin 16, k.val < s.sp.val → 2 ≤ (s.stk[k.val]'k.isLt).toNat ∧ (s.stk[k.val]'k.isLt).toNat ≤ 0x1000

/-- What every state of a run from boot satisfies. -/
structure State.Inv (s : State) : Prop where
  memWf : s.MemWf
  faultIffHalted : s.FaultIffHalted
  pcInRange : s.PcInRange
  liveSlotsInRange : s.LiveSlotsInRange

/-! ### What a step does -/

/-- The next event is a pass of the core. -/
def State.CoreIsNext (s : State) : Prop := s.nextEvent = .pass

/-- `s` with the first `k` events of its schedule passed over. -/
def State.pastEvents (s : State) : Nat → State
  | 0 => s
  | k + 1 => (s.pastEvents k).atPass

/-- The `k`-th event of the schedule, from 0 on, for every `k`. -/
def State.eventAt (s : State) (k : Nat) : Event := (s.pastEvents k).nextEvent

/-- An event of the schedule that comes again after every moment: the fairness of 70_reset_and_hazards.md R177, of
passes (a) and of ticks (b). An assumption that a claim may make, no rule of the machine. -/
def State.KeepsComing (s : State) (e : Event) : Prop := ∀ n, ∃ m, n ≤ m ∧ s.eventAt m = e

/-- The next step fetches the word `w`: a RUNNING pass, no quit, and both bytes at pc below 4096 (40_cycle.md R81,
R82). -/
def State.Fetches (s : State) (w : Word) : Prop :=
  s.CoreIsNext ∧ s.mode = .running ∧ s.quit = false ∧ s.pc.toNat ≤ 0xFFE ∧
    w = wordOfBytes (s.readByte s.pc.toNat) (s.readByte (s.pc.toNat + 1))

/-- The next step runs the instruction `i` (40_cycle.md R83). -/
def State.Runs (s : State) (i : Instr) : Prop := ∃ w, s.Fetches w ∧ decodeWord w = .ok i

/-! ### Frames: what stays -/

/-- Every general register but those listed is unchanged. -/
def RegsKeptBut (xs : List Reg) (s t : State) : Prop := ∀ r : Reg, r ∉ xs → t.reg r = s.reg r

/-- SP and every slot of the call stack are unchanged. -/
def StackKept (s t : State) : Prop := t.sp = s.sp ∧ t.stk = s.stk

/-- Both timers are unchanged. -/
def TimersKept (s t : State) : Prop := t.dt = s.dt ∧ t.st = s.st

/-- Every byte of memory reads as before. -/
def MemKept (s t : State) : Prop := ∀ a : Nat, t.readByte a = s.readByte a

/-- Every pixel reads as before. -/
def FbKept (s t : State) : Prop := ∀ (x : Fin 64) (y : Fin 32), t.readOut x y = s.readOut x y

/-- MODE, KREG and FAULT are unchanged: neither a wait nor a failure was entered. -/
def ControlKept (s t : State) : Prop := t.mode = s.mode ∧ t.kreg = s.kreg ∧ t.fault = s.fault

/-- What belongs to the host and to the fetch: IR, KEY, quit, the schedule, FONT. -/
def HostKept (s t : State) : Prop :=
  t.ir = s.ir ∧ t.keys = s.keys ∧ t.quit = s.quit ∧ t.agenda = s.agenda ∧ t.later = s.later ∧
    t.font = s.font

/-- The supply of random bytes is unchanged. -/
def DrawsKept (s t : State) : Prop := t.draws = s.draws ∧ t.drawn = s.drawn

/-- Everything but the general registers, pc and the random supply is unchanged. -/
def OutsideRegsKept (s t : State) : Prop :=
  t.idx = s.idx ∧ StackKept s t ∧ TimersKept s t ∧ MemKept s t ∧ FbKept s t ∧ ControlKept s t ∧ HostKept s t

/-- Everything but pc is unchanged. -/
def AllButPcKept (s t : State) : Prop := RegsKeptBut [] s t ∧ OutsideRegsKept s t ∧ DrawsKept s t

/-- Everything but the general registers listed and the random supply is unchanged, pc included. -/
def OnlyRegsWritten (xs : List Reg) (s t : State) : Prop :=
  RegsKeptBut xs s t ∧ t.pc = s.pc ∧ OutsideRegsKept s t

/-- Everything but memory is unchanged, pc included. -/
def AllButMemKept (s t : State) : Prop :=
  RegsKeptBut [] s t ∧ t.pc = s.pc ∧ t.idx = s.idx ∧ StackKept s t ∧ TimersKept s t ∧ FbKept s t ∧
    ControlKept s t ∧ HostKept s t ∧ DrawsKept s t

/-- Everything but I is unchanged, pc included. -/
def AllButIdxKept (s t : State) : Prop :=
  RegsKeptBut [] s t ∧ t.pc = s.pc ∧ StackKept s t ∧ TimersKept s t ∧ MemKept s t ∧ FbKept s t ∧
    ControlKept s t ∧ HostKept s t ∧ DrawsKept s t

/-- Everything but the call stack and pc is unchanged. -/
def AllButStackAndPcKept (s t : State) : Prop :=
  RegsKeptBut [] s t ∧ t.idx = s.idx ∧ TimersKept s t ∧ MemKept s t ∧ FbKept s t ∧ ControlKept s t ∧
    HostKept s t ∧ DrawsKept s t

/-- A failure was taken in an instruction that ran with pc past its word: FAULT and MODE are written, pc is the address
of the instruction, and nothing else changed (60_exceptions.md R144, R152; 40_cycle.md R91). -/
def FailedWith (k : FailureKind) (s t : State) : Prop :=
  t.mode = .halted ∧ t.fault = some { kind := k, word := some s.ir, addr := some (s.pc - 2#16) } ∧
    t.pc = s.pc - 2#16 ∧ RegsKeptBut [] s t ∧ t.idx = s.idx ∧ StackKept s t ∧ TimersKept s t ∧ MemKept s t ∧
    FbKept s t ∧ t.kreg = s.kreg ∧ HostKept s t ∧ DrawsKept s t

/-! ### Sprites, stated pixel by pixel (44_display.md R128 to R131) -/

/-- The sprite of `n` rows at I, drawn with its top left pixel at `(px, py)`, has a set bit that lands on pixel
`(X, Y)`: row `r`, column `c`, bit `7 - c` of the byte at I + `r`, wrapped modulo 64 and 32. -/
def SpriteSets (s : State) (px py n : Nat) (X : Fin 64) (Y : Fin 32) : Prop :=
  ∃ r c : Nat, r < n ∧ c < 8 ∧ (px + c) % 64 = X.val ∧ (py + r) % 32 = Y.val ∧
    (s.readByte (s.dataAddr + r)).getLsbD (7 - c) = true

/-! ### Failures of instructions (60_exceptions.md R145, R146) -/

/-- The failure an instruction raises in a state, if any: the column "when" of R145. -/
def instrFailure (i : Instr) (s : State) : Option FailureKind :=
  match i with
  | .call _ => if s.sp.val = 16 then some .stackOverflow else none
  | .ret => if s.sp.val = 0 then some .stackUnderflow else none
  | .drw _ _ n => if n ≥ 1 ∧ s.idx.toNat + n - 1 > 0xFFF then some .addressOutOfRange else none
  | .ldB _ => if s.idx.toNat + 2 > 0xFFF then some .addressOutOfRange else none
  | .storeRegs x | .loadRegs x => if s.idx.toNat + x.val > 0xFFF then some .addressOutOfRange else none
  | .addI x => if s.idx.toNat + (s.reg x).toNat > 0xFFFF then some .addressOutOfRange else none
  | .skp x | .sknp x => if (s.reg x).toNat > 15 then some .keyIndexOutOfRange else none
  | .cls | .jp _ | .seImm _ _ | .sneImm _ _ | .seReg _ _ | .ldImm _ _ | .addImm _ _ | .ldReg _ _ | .orReg _ _
  | .andReg _ _ | .xorReg _ _ | .addReg _ _ | .subReg _ _ | .shr _ | .subnReg _ _ | .shl _ | .sneReg _ _
  | .ldI _ | .jpV0 _ | .rnd _ _ | .ldVxDt _ | .ldVxK _ | .ldDtVx _ | .ldStVx _ | .ldF _ => none

/-- The general registers an instruction may write: its destination, VF where it writes a flag (10_state.md R13), and
the run V0 to Vx of `LD Vx,[I]`. -/
def regsWritten : Instr → List Reg
  | .ldImm x _ | .addImm x _ | .ldReg x _ | .orReg x _ | .andReg x _ | .xorReg x _ | .rnd x _ | .ldVxDt x => [x]
  | .addReg x _ | .subReg x _ | .shr x | .subnReg x _ | .shl x => [x, VF]
  | .drw _ _ _ => [VF]
  | .loadRegs x => (List.finRange 16).filter fun r => decide (r.val ≤ x.val)
  | .cls | .ret | .jp _ | .call _ | .seImm _ _ | .sneImm _ _ | .seReg _ _ | .sneReg _ _ | .ldI _ | .jpV0 _
  | .skp _ | .sknp _ | .ldVxK _ | .ldDtVx _ | .ldStVx _ | .addI _ | .ldF _ | .ldB _ | .storeRegs _ => []

/-! ### Comparing outcomes -/

/-- The next state of an outcome changed by `f`. -/
def mapNext (f : State → State) : Result → Result
  | .next t => .next (f t)
  | .fault q => .fault q
  | .refused q => .refused q

end Sys2Proof.Machine
end

