-- ==== Sys2Proof/Certificates/Slice0/Obligations.lean ====
section
/-! DEFINITION. Sys2Proof/Certificates/Slice0/Obligations.lean: the statements for the provers. In every statement
about `exec i s` the pc of `s` is the address of the instruction plus 2 and its IR the instruction's word
(40_cycle.md R82, R83). -/

open Sys2Proof Sys2Proof.Machine

/-! ### Encoding -/

/-- 30_encoding.md R63 to R72: the decoder reads back every well-formed instruction from its two bytes, with every
operand, and leaves the bytes after it. -/
def Obligations.DecodeOfEncodeIsTheInstruction : Prop :=
  ∀ (i : Instr) (rest : List Byte), i.WellFormed → decode (encode i ++ rest) = .ok (i, rest)

/-- 30_encoding.md R72, R79: the decoder and the opcode map say the same of every word, so no word selects two rows.
The opcode numbers are the spec's general knowledge (G1, log 7). -/
def Obligations.DecoderAgreesWithOpcodeMap : Prop :=
  (∀ (w : Word) (i : Instr), decodeWord w = .ok i →
    i.WellFormed ∧ opcodeRow i ∈ opcodeMap ∧ (opcodeRow i).selects w = true) ∧
  (∀ (w : Word) (row : OpcodeRow), row ∈ opcodeMap → row.selects w = true →
    ∃ i, decodeWord w = .ok i ∧ opcodeRow i = row)

/-- 30_encoding.md R67, R76: the bits decode drops are exactly the low nibble of `5xy-` and `9xy-` and the y field of
`8xy6` and `8xyE`: encoding what a word decodes to gives the word back but for those bits, which come out 0. -/
def Obligations.DecodeDropsOnlyIgnoredBits : Prop :=
  ∀ (w : Word) (i : Instr), decodeWord w = .ok i →
    encodeWord i = match i with
      | .seReg _ _ | .sneReg _ _ => w &&& 0xFFF0#16
      | .shr _ | .shl _ => w &&& 0xFF0F#16
      | _ => w

/-- 30_encoding.md R73: the illegal words are exactly those listed, and fetching one halts the machine with
DECODE_FAILURE, its word and its address. -/
def Obligations.IllegalWordsExactlyAndTheyHalt : Prop :=
  (∀ w : Word, (∀ i, decodeWord w ≠ .ok i) ↔
    (opField w = 0x0#4 ∧ nnnField w ≠ 0x0E0#12 ∧ nnnField w ≠ 0x0EE#12) ∨
    (opField w = 0x8#4 ∧ nField w ∈ [0x8#4, 0x9#4, 0xA#4, 0xB#4, 0xC#4, 0xD#4, 0xF#4]) ∨
    (opField w = 0xE#4 ∧ kkField w ∉ [0x9E#8, 0xA1#8]) ∨
    (opField w = 0xF#4 ∧ kkField w ∉
      [0x07#8, 0x0A#8, 0x15#8, 0x18#8, 0x1E#8, 0x29#8, 0x33#8, 0x55#8, 0x65#8])) ∧
  (∀ (s : State) (w : Word), s.Fetches w → (∀ i, decodeWord w ≠ .ok i) →
    step s = .next { s.atPass with
      mode := .halted
      fault := some { kind := .decodeFailure, word := some w, addr := some s.pc } })

/-- Words written out from 30_encoding.md R72 and the source's bytes of its section 8: sanity. -/
def Obligations.SourceWordsDecode : Prop :=
  decode [0x60, 0x05] = .ok (.ldImm 0 5, []) ∧ decode [0x61, 0x03] = .ok (.ldImm 1 3, []) ∧
  decode [0x80, 0x14] = .ok (.addReg 0 1, []) ∧ decode [0xA2, 0x50] = .ok (.ldI 0x250, []) ∧
  decode [0xD0, 0x15] = .ok (.drw 0 1 5, [])

/-! ### Reset and boot -/

/-- The values the model gives State.reset: pc 0x0200 and a blank framebuffer (the source's, 10_state.md R31), memory
as 20_memory.md R51 with the default font, and the values of the spec's decision D2 (log 4). STK, IR and KREG are left
open there and not stated here (log 5). -/
def Obligations.ResetValues : Prop :=
  State.reset.pc = 0x0200#16 ∧ (∀ x y, State.reset.readOut x y = false) ∧
  (∀ k : Fin 80, State.reset.readByte (0x050 + k.val) = State.reset.font[k]) ∧
  (∀ a, a < 0x050 ∨ 0x0A0 ≤ a → State.reset.readByte a = 0x00#8) ∧
  (∀ r, State.reset.reg r = 0x00#8) ∧ State.reset.idx = 0x0000#16 ∧ State.reset.sp = 0 ∧
  State.reset.dt = 0x00#8 ∧ State.reset.st = 0x00#8 ∧ State.reset.mode = .running ∧ State.reset.fault = none

/-- 20_memory.md R51 and 70_reset_and_hazards.md R169: after a boot with a program of at most 3584 bytes the program
lies at 0x200, FONT at 0x050 to 0x09F, every other cell is zero, and pc is 0x200, whatever the state before. -/
def Obligations.BootMemoryMap : Prop :=
  ∀ (s : State) (rom : List Byte), rom.length ≤ 3584 →
    (s.boot rom).pc = 0x0200#16 ∧
    (∀ k (h : k < rom.length), (s.boot rom).readByte (0x200 + k) = rom[k]) ∧
    (∀ k : Fin 80, (s.boot rom).readByte (0x050 + k.val) = s.font[k]) ∧
    (∀ a, a < 0x050 ∨ (0x0A0 ≤ a ∧ a < 0x200) ∨ 0x200 + rom.length ≤ a → (s.boot rom).readByte a = 0x00#8)

/-- 60_exceptions.md R151 and 70_reset_and_hazards.md R169: a program of more than 3584 bytes fails with
ROM_LOAD_FAILURE, no cell holds any of it, and no pass follows, where the schedule names one too. That the failure
stands in FAULT and MODE is the model's reading (log 17), and so is the form of the stop (log 9). -/
def Obligations.OversizedProgramNeverRuns : Prop :=
  ∀ (s : State) (rom : List Byte), 3584 < rom.length →
    (s.boot rom).mode = .halted ∧ (s.boot rom).fault.map FaultRecord.kind = some .romLoadFailure ∧
    (∀ k : Fin 80, (s.boot rom).readByte (0x050 + k.val) = s.font[k]) ∧
    (∀ a, a < 0x050 ∨ 0x0A0 ≤ a → (s.boot rom).readByte a = 0x00#8) ∧
    (s.CoreIsNext → step (s.boot rom) = .fault .halted)

/-! ### Memory primitives -/

/-- 20_memory.md R42 and R43: `MemRead` and `MemWrite`, over the model's read of one byte. -/
def Obligations.MemReadAndMemWrite : Prop :=
  ∀ (s : State) (addr : Nat),
    s.memRead addr 0 = some [] ∧
    (∀ n, 1 ≤ n → addr + n - 1 > 4095 → s.memRead addr n = none) ∧
    (∀ n, 1 ≤ n → addr + n - 1 ≤ 4095 → ∃ bs : List Byte, s.memRead addr n = some bs ∧ bs.length = n ∧
      ∀ k (h : k < bs.length), bs[k] = s.readByte (addr + k)) ∧
    (∀ bs : List Byte, 1 ≤ bs.length → addr + bs.length - 1 > 4095 → s.memWrite addr bs = none) ∧
    (∀ bs : List Byte, 1 ≤ bs.length → addr + bs.length - 1 ≤ 4095 → ∃ t, s.memWrite addr bs = some t ∧
      (∀ k (h : k < bs.length), t.readByte (addr + k) = bs[k]) ∧
      (∀ a, a < addr ∨ addr + bs.length ≤ a → t.readByte a = s.readByte a) ∧ AllButMemKept s t)

/-! ### The cycle -/

/-- 40_cycle.md R81 to R83 and R91: where the bytes at pc decode to `i`, the step runs `i` in the state with IR set to
the word and pc moved past it; it answers what `exec` answers, but for a failure, which commits MODE and FAULT only.
(That a failure commits nothing else is the spec's decision D6, log 10.) -/
def Obligations.StepRunsTheDecodedInstruction : Prop :=
  ∀ (s : State) (w : Word) (i : Instr), s.Fetches w → decodeWord w = .ok i →
    i.WellFormed ∧ ∃ t, exec i { s.atPass with ir := w, pc := s.pc + 2#16 } = .next t ∧
      (t.mode ≠ .halted → step s = .next t) ∧
      (t.mode = .halted → step s = .next { s.atPass with mode := .halted, fault := t.fault })

/-- 40_cycle.md R82 and the spec's decision D5 (log 11): a fetch with pc above 0xFFE halts the machine with
ADDRESS_OUT_OF_RANGE, the word absent. -/
def Obligations.FetchPastMemoryHalts : Prop :=
  ∀ s : State, s.CoreIsNext → s.mode = .running → s.quit = false → s.pc.toNat > 0xFFE →
    step s = .next { s.atPass with
      mode := .halted
      fault := some { kind := .addressOutOfRange, word := none, addr := some s.pc } }

/-- 40_cycle.md R85 and the spec's decision D35 (log 18): in HALTED there is no pass, a tick changes nothing, and a
boot starts the machine again. The form of the stop is the model's (log 9). -/
def Obligations.HaltedHasNoPassAndNoTick : Prop :=
  ∀ s : State, s.mode = .halted →
    (s.CoreIsNext → step s = .fault .halted) ∧
    (s.nextEvent = .tick → step s = .next s.atPass) ∧
    (∀ rom, s.nextEvent = .boot rom → rom.length ≤ 3584 →
      ∃ t, step s = .next t ∧ t.mode = .running ∧ t.fault = none ∧ t.pc = 0x0200#16)

/-- 40_cycle.md R88: with quit set there is no further pass; quit is never observed by an instruction and never set by
the core. That the missing pass is a step that stops with a named fault, `halted` before `quit`, is the model's choice
(log 9). -/
def Obligations.QuitStopsThePassesAndIsInvisible : Prop :=
  (∀ s : State, s.quit = true → s.mode ≠ .halted → s.CoreIsNext → step s = .fault .quit) ∧
  (∀ (i : Instr) (s : State) (q : Bool),
    exec i { s with quit := q } = mapNext (fun t => { t with quit := q }) (exec i s)) ∧
  (∀ (s t : State), s.CoreIsNext → step s = .next t → t.quit = s.quit)

/-- 40_cycle.md R84 and 45_keypad_timers.md R139: a key-wait pass with no key pressed changes nothing; with one pressed
it loads the smallest pressed index into `V[KREG]`, the machine runs again, pc where it was, and nothing else changes,
IR and the random supply included. That it is the smallest is the spec's decision D11 (log 13). -/
def Obligations.KeyWaitPassTakesTheSmallestKey : Prop :=
  ∀ s : State, s.CoreIsNext → s.mode = .awaitKey → s.quit = false →
    ((∀ k < 16, s.keys.getLsbD k = false) → step s = .next s.atPass) ∧
    (∀ k : Fin 16, s.keys.getLsbD k.val = true → (∀ j < k.val, s.keys.getLsbD j = false) →
      ∃ t, step s = .next t ∧ (t.reg s.kreg).toNat = k.val ∧ t.mode = .running ∧ t.pc = s.pc ∧
        RegsKeptBut [s.kreg] s t ∧ t.idx = s.idx ∧ StackKept s t ∧ TimersKept s t ∧ MemKept s t ∧ FbKept s t ∧
        t.kreg = s.kreg ∧ t.fault = s.fault ∧ HostKept s.atPass t ∧ DrawsKept s t)

/-- 60_exceptions.md R159, R160, R162: `k` ticks in a row lower each timer by `k`, stopping at zero, in RUNNING and in
AWAIT_KEY alike, and change nothing else. The formula for `k` ticks is the spec's decision D18, the form of the schedule
is the model's (log 1), and that ticks still count after quit is the model's choice (log 18). -/
def Obligations.TicksLowerBothTimersAndSaturate : Prop :=
  ∀ (k : Nat) (s : State), s.mode ≠ .halted → (∀ j < k, s.eventAt j = .tick) →
    ∃ t : State, Sys2Proof.core.run k s = .next t ∧ t.dt.toNat = s.dt.toNat - k ∧ t.st.toNat = s.st.toNat - k ∧
      t = { s.pastEvents k with dt := t.dt, st := t.st }

/-- 60_exceptions.md R161 and 40_cycle.md R80: a run reads its schedule event by event and for ever, and every schedule
is some state's: a listed beginning, then a list repeated without end (passes, where it is empty) or the free schedule,
of which nothing is known. The form of the schedule is the model's (log 1). -/
def Obligations.ARunFollowsItsEndlessSchedule : Prop :=
  (∀ (k : Nat) (s t : State), Sys2Proof.core.run k s = .next t → ∀ j, t.eventAt j = s.eventAt (k + j)) ∧
  (∀ (s : State) (j : Nat) (h : j < s.agenda.length), s.eventAt j = s.agenda[j]) ∧
  (∀ s : State, s.later = .repeating [] → ∀ j, s.eventAt (s.agenda.length + j) = .pass) ∧
  (∀ (s : State) (es : List Event) (h : 0 < es.length), s.later = .repeating es →
    ∀ j, s.eventAt (s.agenda.length + j) = es[j % es.length]'(Nat.mod_lt j h)) ∧
  (∀ (s : State) (n : Nat), s.later = .free n → ∀ j, s.eventAt (s.agenda.length + j) = Config.freeEvent (n + j))

/-- 60_exceptions.md R161 and 70_reset_and_hazards.md R177 (b): under every schedule in which ticks keep coming, a run
that never stops, never halts and never runs `LD DT,Vx` comes to a state with DT zero. Fairness is the spec's assumption
about the environment (decision D18) and a hypothesis here. -/
def Obligations.TicksThatKeepComingStopDt : Prop :=
  ∀ s : State, s.KeepsComing .tick →
    (∀ k, ∃ t : State, Sys2Proof.core.run k s = .next t ∧ t.mode ≠ .halted ∧ ∀ x, ¬ t.Runs (.ldDtVx x)) →
    ∃ (k : Nat) (t : State), Sys2Proof.core.run k s = .next t ∧ t.dt = 0x00#8

/-- 70_reset_and_hazards.md R176, over every schedule: a step raises DT only by `LD DT,Vx` and ST only by
`LD ST,Vx`. -/
def Obligations.TimersNeverRiseUnasked : Prop :=
  ∀ s t : State, step s = .next t →
    (t.dt.toNat ≤ s.dt.toNat ∨ ∃ x, s.Runs (.ldDtVx x)) ∧ (t.st.toNat ≤ s.st.toNat ∨ ∃ x, s.Runs (.ldStVx x))

/-! ### Control transfer (41_control.md) -/

/-- R95: `JP nnn` sets pc to the address, any of 0x000 to 0xFFF, odd ones too, and changes nothing else. -/
def Obligations.JumpSetsPc : Prop :=
  ∀ (nnn : BitVec 12) (s : State), ∃ t, exec (.jp nnn) s = .next t ∧ t.pc.toNat = nnn.toNat ∧ AllButPcKept s t

/-- R101: `JP V0,nnn` sets pc to the sum of V0 and the address and changes nothing else. That the sum is not reduced to
12 bits is the spec's decision D24 (log 16). -/
def Obligations.JumpThroughV0IsUnmasked : Prop :=
  ∀ (nnn : BitVec 12) (s : State), ∃ t, exec (.jpV0 nnn) s = .next t ∧
    t.pc.toNat = (s.reg 0).toNat + nnn.toNat ∧ AllButPcKept s t

/-- R97 to R100: each skip adds 2 to pc exactly when its condition holds, and changes nothing else. -/
def Obligations.SkipsAdvancePcByTwo : Prop :=
  ∀ (x y : Reg) (kk : Byte) (s : State),
    (∃ t, exec (.seImm x kk) s = .next t ∧ t.pc = (if s.reg x = kk then s.pc + 2#16 else s.pc) ∧ AllButPcKept s t) ∧
    (∃ t, exec (.sneImm x kk) s = .next t ∧ t.pc = (if s.reg x ≠ kk then s.pc + 2#16 else s.pc) ∧
      AllButPcKept s t) ∧
    (∃ t, exec (.seReg x y) s = .next t ∧ t.pc = (if s.reg x = s.reg y then s.pc + 2#16 else s.pc) ∧
      AllButPcKept s t) ∧
    (∃ t, exec (.sneReg x y) s = .next t ∧ t.pc = (if s.reg x ≠ s.reg y then s.pc + 2#16 else s.pc) ∧
      AllButPcKept s t)

/-- R96: `CALL nnn` with SP below 16 pushes pc, raises SP by one and jumps; with SP 16 it raises STACK_OVERFLOW and
nothing else changes. -/
def Obligations.CallPushesAndJumps : Prop :=
  ∀ (nnn : BitVec 12) (s : State),
    (s.sp.val < 16 → ∃ t, exec (.call nnn) s = .next t ∧ t.sp.val = s.sp.val + 1 ∧ t.pc.toNat = nnn.toNat ∧
      (∀ k : Fin 16, t.stk[k] = if k.val = s.sp.val then s.pc else s.stk[k]) ∧ AllButStackAndPcKept s t) ∧
    (s.sp.val = 16 → ∃ t, exec (.call nnn) s = .next t ∧ FailedWith .stackOverflow s t)

/-- R94: `RET` with SP above 0 lowers SP by one and takes pc from the slot popped, which keeps its value; with SP 0 it
raises STACK_UNDERFLOW and nothing else changes. (That the slot keeps its value is the spec's decision D30, log 24.) -/
def Obligations.RetPopsIntoPc : Prop :=
  ∀ s : State,
    (∀ k : Fin 16, s.sp.val = k.val + 1 → ∃ t, exec .ret s = .next t ∧ t.sp.val = k.val ∧ t.pc = s.stk[k] ∧
      t.stk = s.stk ∧ AllButStackAndPcKept s t) ∧
    (s.sp.val = 0 → ∃ t, exec .ret s = .next t ∧ FailedWith .stackUnderflow s t)

/-- 41_control.md R96 with R94 (the source's stack example): a call followed by the return of its subroutine comes back
to the instruction after the call with SP as before, whatever ran between so long as it left the call's stack as it
was. -/
def Obligations.CallThenRetReturns : Prop :=
  ∀ (nnn : BitVec 12) (s t u : State), s.sp.val < 16 → exec (.call nnn) s = .next t → u.sp = t.sp → u.stk = t.stk →
    ∃ r, exec .ret u = .next r ∧ r.pc = s.pc ∧ r.sp = s.sp ∧ AllButStackAndPcKept u r

/-! ### Registers and ALU (42_alu.md) -/

/-- R104, R106 and 45_keypad_timers.md R140: the three loads write their destination, VF like any other, and nothing
else. -/
def Obligations.RegisterLoads : Prop :=
  ∀ (x y : Reg) (kk : Byte) (s : State),
    (∃ t, exec (.ldImm x kk) s = .next t ∧ t.reg x = kk ∧ OnlyRegsWritten [x] s t ∧ DrawsKept s t) ∧
    (∃ t, exec (.ldReg x y) s = .next t ∧ t.reg x = s.reg y ∧ OnlyRegsWritten [x] s t ∧ DrawsKept s t) ∧
    (∃ t, exec (.ldVxDt x) s = .next t ∧ t.reg x = s.dt ∧ OnlyRegsWritten [x] s t ∧ DrawsKept s t)

/-- R105: `ADD Vx,kk` adds modulo 256 and writes no flag. -/
def Obligations.AddImmediateWrapsWithoutFlag : Prop :=
  ∀ (x : Reg) (kk : Byte) (s : State), ∃ t, exec (.addImm x kk) s = .next t ∧
    (t.reg x).toNat = ((s.reg x).toNat + kk.toNat) % 256 ∧ OnlyRegsWritten [x] s t ∧ DrawsKept s t

/-- R107 to R109: OR, AND and XOR act on each bit and leave VF alone unless it is the destination. -/
def Obligations.BitwiseOperations : Prop :=
  ∀ (x y : Reg) (s : State),
    (∃ t, exec (.orReg x y) s = .next t ∧
      (∀ k < 8, (t.reg x).getLsbD k = ((s.reg x).getLsbD k || (s.reg y).getLsbD k)) ∧
      OnlyRegsWritten [x] s t ∧ DrawsKept s t) ∧
    (∃ t, exec (.andReg x y) s = .next t ∧
      (∀ k < 8, (t.reg x).getLsbD k = ((s.reg x).getLsbD k && (s.reg y).getLsbD k)) ∧
      OnlyRegsWritten [x] s t ∧ DrawsKept s t) ∧
    (∃ t, exec (.xorReg x y) s = .next t ∧
      (∀ k < 8, (t.reg x).getLsbD k = ((s.reg x).getLsbD k != (s.reg y).getLsbD k)) ∧
      OnlyRegsWritten [x] s t ∧ DrawsKept s t)

/-- R110: `ADD Vx,Vy` gives the sum modulo 256 and VF the carry. With x = 15 the result is what VF holds, the spec's
decision D3 (log 12). -/
def Obligations.AddRegistersSetsCarry : Prop :=
  ∀ (x y : Reg) (s : State), ∃ t, exec (.addReg x y) s = .next t ∧
    (t.reg x).toNat = ((s.reg x).toNat + (s.reg y).toNat) % 256 ∧
    (x ≠ VF → t.reg VF = if (s.reg x).toNat + (s.reg y).toNat > 255 then 1#8 else 0#8) ∧
    OnlyRegsWritten [x, VF] s t ∧ DrawsKept s t

/-- R111 and R113: `SUB` and `SUBN` subtract modulo 256; VF is 1 exactly when the minuend is strictly greater. With
x = 15 the result is what VF holds, the spec's decision D3 (log 12). -/
def Obligations.SubtractionsSetStrictFlag : Prop :=
  ∀ (x y : Reg) (s : State),
    (∃ t, exec (.subReg x y) s = .next t ∧
      ((t.reg x).toNat : Int) = ((s.reg x).toNat - (s.reg y).toNat : Int) % 256 ∧
      (x ≠ VF → t.reg VF = if (s.reg x).toNat > (s.reg y).toNat then 1#8 else 0#8) ∧
      OnlyRegsWritten [x, VF] s t ∧ DrawsKept s t) ∧
    (∃ t, exec (.subnReg x y) s = .next t ∧
      ((t.reg x).toNat : Int) = ((s.reg y).toNat - (s.reg x).toNat : Int) % 256 ∧
      (x ≠ VF → t.reg VF = if (s.reg y).toNat > (s.reg x).toNat then 1#8 else 0#8) ∧
      OnlyRegsWritten [x, VF] s t ∧ DrawsKept s t)

/-- R112 and R114: `SHR` halves and `SHL` doubles modulo 256; VF is the bit shifted out. With x = 15 the result is what
VF holds, the spec's decision D3 (log 12). -/
def Obligations.ShiftsByOneSetTheBitShiftedOut : Prop :=
  ∀ (x : Reg) (s : State),
    (∃ t, exec (.shr x) s = .next t ∧ (t.reg x).toNat = (s.reg x).toNat / 2 ∧
      (x ≠ VF → (t.reg VF).toNat = (s.reg x).toNat % 2) ∧ OnlyRegsWritten [x, VF] s t ∧ DrawsKept s t) ∧
    (∃ t, exec (.shl x) s = .next t ∧ (t.reg x).toNat = 2 * (s.reg x).toNat % 256 ∧
      (x ≠ VF → (t.reg VF).toNat = (s.reg x).toNat / 128) ∧ OnlyRegsWritten [x, VF] s t ∧ DrawsKept s t)

/-- R115: `RND Vx,kk` writes a drawn byte under the mask. Every byte can be the draw (a state whose source delivers it
next); where the supply is empty the draw is the free value. The draw as a free input is the spec's decision D17, its
form the model's (log 2). -/
def Obligations.RandomByteUnderMask : Prop :=
  ∀ (x : Reg) (kk : Byte) (s : State), ∃ (r : Byte) (t : State), exec (.rnd x kk) s = .next t ∧
    t.reg x = (r &&& kk) ∧ (t.reg x &&& ~~~kk) = 0#8 ∧ OnlyRegsWritten [x] s t ∧ t.drawn = s.drawn + 1 ∧
    (∀ b rest, s.draws = b :: rest → r = b ∧ t.draws = rest) ∧
    (s.draws = [] → r = Config.freeRnd s.drawn ∧ t.draws = [])

/-! ### Index register and memory (43_index_memory.md) -/

/-- R119: `LD I,nnn` loads I with the address and changes nothing else. -/
def Obligations.LoadIndexImmediate : Prop :=
  ∀ (nnn : BitVec 12) (s : State), ∃ t, exec (.ldI nnn) s = .next t ∧ t.idx.toNat = nnn.toNat ∧ AllButIdxKept s t

/-- R121: `LD F,Vx` points I at 0x050 + 5 times the register and changes nothing else. That the whole byte counts, not
its low nibble, is the spec's decision D23 (log 16). -/
def Obligations.LoadGlyphAddress : Prop :=
  ∀ (x : Reg) (s : State), ∃ t, exec (.ldF x) s = .next t ∧ t.idx.toNat = 0x050 + 5 * (s.reg x).toNat ∧
    AllButIdxKept s t

/-- R120: `ADD I,Vx` adds without masking, VF untouched; a sum above 0xFFFF raises ADDRESS_OUT_OF_RANGE, the spec's
decision D9 (log 11). -/
def Obligations.AddToIndex : Prop :=
  ∀ (x : Reg) (s : State),
    (s.idx.toNat + (s.reg x).toNat ≤ 0xFFFF → ∃ t, exec (.addI x) s = .next t ∧
      t.idx.toNat = s.idx.toNat + (s.reg x).toNat ∧ AllButIdxKept s t) ∧
    (s.idx.toNat + (s.reg x).toNat > 0xFFFF → ∃ t, exec (.addI x) s = .next t ∧ FailedWith .addressOutOfRange s t)

/-- R122: `LD B,Vx` stores the three decimal digits at I, I+1, I+2 and nothing else; out of range it stores nothing. -/
def Obligations.StoreDecimalDigits : Prop :=
  ∀ (x : Reg) (s : State),
    (s.dataAddr + 2 ≤ 4095 → ∃ t, exec (.ldB x) s = .next t ∧
      (t.readByte s.dataAddr).toNat = (s.reg x).toNat / 100 ∧
      (t.readByte (s.dataAddr + 1)).toNat = (s.reg x).toNat / 10 % 10 ∧
      (t.readByte (s.dataAddr + 2)).toNat = (s.reg x).toNat % 10 ∧
      (∀ a, a < s.dataAddr ∨ s.dataAddr + 3 ≤ a → t.readByte a = s.readByte a) ∧ AllButMemKept s t) ∧
    (s.dataAddr + 2 > 4095 → ∃ t, exec (.ldB x) s = .next t ∧ FailedWith .addressOutOfRange s t)

/-- R123: `LD [I],Vx` stores V0 to Vx at I to I+x and nothing else; out of range it stores nothing. -/
def Obligations.StoreRegisterRun : Prop :=
  ∀ (x : Reg) (s : State),
    (s.dataAddr + x.val ≤ 4095 → ∃ t, exec (.storeRegs x) s = .next t ∧
      (∀ r : Reg, r.val ≤ x.val → t.readByte (s.dataAddr + r.val) = s.reg r) ∧
      (∀ a, a < s.dataAddr ∨ s.dataAddr + x.val + 1 ≤ a → t.readByte a = s.readByte a) ∧ AllButMemKept s t) ∧
    (s.dataAddr + x.val > 4095 → ∃ t, exec (.storeRegs x) s = .next t ∧ FailedWith .addressOutOfRange s t)

/-- R124: `LD Vx,[I]` loads V0 to Vx from I to I+x; the registers above and everything else are unchanged; out of range
no register changes. -/
def Obligations.LoadRegisterRun : Prop :=
  ∀ (x : Reg) (s : State),
    (s.dataAddr + x.val ≤ 4095 → ∃ t, exec (.loadRegs x) s = .next t ∧
      (∀ r : Reg, t.reg r = if r.val ≤ x.val then s.readByte (s.dataAddr + r.val) else s.reg r) ∧
      t.pc = s.pc ∧ OutsideRegsKept s t ∧ DrawsKept s t) ∧
    (s.dataAddr + x.val > 4095 → ∃ t, exec (.loadRegs x) s = .next t ∧ FailedWith .addressOutOfRange s t)

/-- R123 with R124: registers stored and loaded again through the same I come back, whatever the registers hold in
between. -/
def Obligations.StoreThenLoadRestoresRegisters : Prop :=
  ∀ (x : Reg) (s t : State) (v : Vector Byte 16), s.dataAddr + x.val ≤ 4095 → exec (.storeRegs x) s = .next t →
    ∃ u, exec (.loadRegs x) { t with v := v } = .next u ∧ ∀ r : Reg, r.val ≤ x.val → u.reg r = s.reg r

/-! ### Display (44_display.md) -/

/-- R127: `CLS` turns every pixel off and changes nothing else, VF included. -/
def Obligations.ClearTurnsEveryPixelOff : Prop :=
  ∀ s : State, ∃ t, exec .cls s = .next t ∧ (∀ x y, t.readOut x y = false) ∧ RegsKeptBut [] s t ∧ t.pc = s.pc ∧
    t.idx = s.idx ∧ StackKept s t ∧ TimersKept s t ∧ MemKept s t ∧ ControlKept s t ∧ HostKept s t ∧ DrawsKept s t

/-- R128 to R131 and R133, pixel by pixel: in range, `DRW Vx,Vy,n` inverts exactly the pixels the sprite sets, and VF
is 1 exactly when one of them was on; every other register is unchanged, and so is all else. Per-pixel wrapping is the
spec's decision D20 (log 15). -/
def Obligations.DrawInvertsExactlyTheSpritePixels : Prop :=
  ∀ (x y : Reg) (n : Nat) (s : State), n < 16 → (n = 0 ∨ s.dataAddr + n - 1 ≤ 4095) →
    ∃ t, exec (.drw x y n) s = .next t ∧
      (∀ X Y, SpriteSets s (s.reg x).toNat (s.reg y).toNat n X Y → t.readOut X Y = !s.readOut X Y) ∧
      (∀ X Y, ¬ SpriteSets s (s.reg x).toNat (s.reg y).toNat n X Y → t.readOut X Y = s.readOut X Y) ∧
      ((∃ X Y, SpriteSets s (s.reg x).toNat (s.reg y).toNat n X Y ∧ s.readOut X Y = true) → t.reg VF = 1#8) ∧
      (¬ (∃ X Y, SpriteSets s (s.reg x).toNat (s.reg y).toNat n X Y ∧ s.readOut X Y = true) → t.reg VF = 0#8) ∧
      RegsKeptBut [VF] s t ∧ t.pc = s.pc ∧ t.idx = s.idx ∧ StackKept s t ∧ TimersKept s t ∧ MemKept s t ∧
      ControlKept s t ∧ HostKept s t ∧ DrawsKept s t

/-- R128: out of range, `DRW` raises ADDRESS_OUT_OF_RANGE; no pixel changes and VF is not written. -/
def Obligations.DrawOutOfRangeFails : Prop :=
  ∀ (x y : Reg) (n : Nat) (s : State), 1 ≤ n → s.dataAddr + n - 1 > 4095 →
    ∃ t, exec (.drw x y n) s = .next t ∧ FailedWith .addressOutOfRange s t

/-- R132: the same sprite drawn twice at the same place restores the framebuffer; the second draw reports a collision
exactly when the first left a pixel of the sprite on. The coordinate registers are not VF, so the place is the same. -/
def Obligations.DrawTwiceRestores : Prop :=
  ∀ (x y : Reg) (n : Nat) (s t : State), n < 16 → x ≠ VF → y ≠ VF → (n = 0 ∨ s.dataAddr + n - 1 ≤ 4095) →
    exec (.drw x y n) s = .next t →
    ∃ u, exec (.drw x y n) t = .next u ∧ FbKept s u ∧
      (u.reg VF = 1#8 ↔ ∃ X Y, SpriteSets s (s.reg x).toNat (s.reg y).toNat n X Y ∧ t.readOut X Y = true)

/-! ### Keypad and timers (45_keypad_timers.md) -/

/-- R136 and R137: with `V[x]` at most 15 `SKP` and `SKNP` skip when key `V[x]` is, or is not, pressed, and change
nothing else; above 15 they raise KEY_INDEX_OUT_OF_RANGE, the spec's decision D10 (log 11). -/
def Obligations.KeySkips : Prop :=
  ∀ (x : Reg) (s : State),
    ((s.reg x).toNat ≤ 15 →
      (∃ t, exec (.skp x) s = .next t ∧
        t.pc = (if s.keys.getLsbD (s.reg x).toNat = true then s.pc + 2#16 else s.pc) ∧ AllButPcKept s t) ∧
      (∃ t, exec (.sknp x) s = .next t ∧
        t.pc = (if s.keys.getLsbD (s.reg x).toNat = true then s.pc else s.pc + 2#16) ∧ AllButPcKept s t)) ∧
    ((s.reg x).toNat > 15 →
      (∃ t, exec (.skp x) s = .next t ∧ FailedWith .keyIndexOutOfRange s t) ∧
      (∃ t, exec (.sknp x) s = .next t ∧ FailedWith .keyIndexOutOfRange s t))

/-- R138: the pass of `LD Vx,K` enters AWAIT_KEY with destination x, reads no key, and changes nothing else. That the
dispatching pass does not sample is the spec's decision D12 (log 13). -/
def Obligations.WaitForKeyEntersAwaitKey : Prop :=
  ∀ (x : Reg) (s : State), ∃ t, exec (.ldVxK x) s = .next t ∧ t.mode = .awaitKey ∧ t.kreg = x ∧ t.pc = s.pc ∧
    RegsKeptBut [] s t ∧ t.idx = s.idx ∧ StackKept s t ∧ TimersKept s t ∧ MemKept s t ∧ FbKept s t ∧
    t.fault = s.fault ∧ HostKept s t ∧ DrawsKept s t

/-- R141 and R142: `LD DT,Vx` and `LD ST,Vx` load their timer with any value and change nothing else. -/
def Obligations.TimerLoads : Prop :=
  ∀ (x : Reg) (s : State),
    (∃ t, exec (.ldDtVx x) s = .next t ∧ t.dt = s.reg x ∧ t.st = s.st ∧ RegsKeptBut [] s t ∧ t.pc = s.pc ∧
      t.idx = s.idx ∧ StackKept s t ∧ MemKept s t ∧ FbKept s t ∧ ControlKept s t ∧ HostKept s t ∧ DrawsKept s t) ∧
    (∃ t, exec (.ldStVx x) s = .next t ∧ t.st = s.reg x ∧ t.dt = s.dt ∧ RegsKeptBut [] s t ∧ t.pc = s.pc ∧
      t.idx = s.idx ∧ StackKept s t ∧ MemKept s t ∧ FbKept s t ∧ ControlKept s t ∧ HostKept s t ∧ DrawsKept s t)

/-! ### Failures -/

/-- 60_exceptions.md R145: in a state that is not halted an instruction fails exactly under the conditions listed there
and with the kind listed, and no other condition is a failure. The sixth kind and the 16-bit bound of `ADD I,Vx` are
the spec's decisions D10 and D9 (log 11). -/
def Obligations.InstructionsFailExactlyAsListed : Prop :=
  ∀ (i : Instr) (s t : State), s.mode ≠ .halted → exec i s = .next t →
    (t.mode = .halted ↔ (instrFailure i s).isSome = true) ∧
    (∀ k, instrFailure i s = some k → FailedWith k s t)

/-- 40_cycle.md R91, 60_exceptions.md R152 and R153: a pass that ends in HALTED changed MODE and FAULT only, and FAULT
names the instruction by its address and, but for a fetch failure, its word. No effect committed and the form of the
record are the spec's decisions D6 and D7 (log 10). -/
def Obligations.FailuresArePrecise : Prop :=
  ∀ s t : State, s.mode = .running → s.CoreIsNext → step s = .next t → t.mode = .halted →
    ∃ f : FaultRecord, t = { s.atPass with mode := .halted, fault := some f } ∧ f.addr = some s.pc ∧
      (f.word = none → s.pc.toNat > 0xFFE ∧ f.kind = .addressOutOfRange) ∧
      (∀ w, f.word = some w → s.Fetches w)

/-- 30_encoding.md R74, 60_exceptions.md R144: no instruction stops the model: in every state every instruction answers
a next state, a failure included. -/
def Obligations.EveryInstructionAnswersANextState : Prop :=
  ∀ (i : Instr) (s : State), ∃ t, exec i s = .next t

/-- 40_cycle.md R85 and R88, 60_exceptions.md R144: a step stops only for want of a pass: in HALTED, or after quit,
with a pass next. The form of the stops is the model's (log 9). -/
def Obligations.AStepStopsOnlyInHaltedOrAfterQuit : Prop :=
  ∀ s : State, (∃ t, step s = .next t) ∨
    (s.CoreIsNext ∧ ((s.mode = .halted ∧ step s = .fault .halted) ∨
      (s.mode ≠ .halted ∧ s.quit = true ∧ step s = .fault .quit)))

/-! ### Rules of the whole machine -/

/-- 10_state.md R13 and R12: an instruction changes no general register but its destination, VF where it writes a flag,
and the run of `LD Vx,[I]`. -/
def Obligations.RegistersChangeOnlyAsDestinations : Prop :=
  ∀ (i : Instr) (s t : State), exec i s = .next t → RegsKeptBut (regsWritten i) s t

/-- 20_memory.md R48 and R52: the only steps that change a byte of memory are `LD B,Vx`, `LD [I],Vx` and boot. -/
def Obligations.MemoryChangesOnlyByStoresAndBoot : Prop :=
  ∀ s t : State, step s = .next t → MemKept s t ∨ (∃ x, s.Runs (.ldB x)) ∨ (∃ x, s.Runs (.storeRegs x)) ∨
    (∃ rom, s.nextEvent = .boot rom)

/-- 20_memory.md R60, 10_state.md R27: the only steps that change the framebuffer are `CLS`, `DRW` and boot. -/
def Obligations.FramebufferChangesOnlyByClsDrwAndBoot : Prop :=
  ∀ s t : State, step s = .next t → t.fb = s.fb ∨ s.Runs .cls ∨ (∃ x y n, s.Runs (.drw x y n)) ∨
    (∃ rom, s.nextEvent = .boot rom)

/-- 10_state.md R20 and R21: the only steps that change the call stack are `CALL`, `RET` (SP alone) and boot, and SP
moves by one. -/
def Obligations.StackChangesOnlyByCallRetAndBoot : Prop :=
  ∀ s t : State, step s = .next t → StackKept s t ∨
    (∃ nnn, s.Runs (.call nnn) ∧ t.sp.val = s.sp.val + 1) ∨
    (s.Runs .ret ∧ t.sp.val + 1 = s.sp.val ∧ t.stk = s.stk) ∨ (∃ rom, s.nextEvent = .boot rom)

/-- 10_state.md R19 and 43_index_memory.md R125: the only steps that change I are `LD I,nnn`, `ADD I,Vx`, `LD F,Vx` and
boot, so no memory access moves it. -/
def Obligations.IndexChangesOnlyByIndexInstructions : Prop :=
  ∀ s t : State, step s = .next t → t.idx = s.idx ∨ (∃ nnn, s.Runs (.ldI nnn)) ∨ (∃ x, s.Runs (.addI x)) ∨
    (∃ x, s.Runs (.ldF x)) ∨ (∃ rom, s.nextEvent = .boot rom)

/-- 10_state.md R24: MODE changes only from RUNNING to AWAIT_KEY by `LD Vx,K` (which sets KREG), from AWAIT_KEY to
RUNNING by a pass that sees a key, from RUNNING to HALTED by a failure, and by boot, the only way out of HALTED. -/
def Obligations.ModeChangesOnlyAsListed : Prop :=
  ∀ s t : State, step s = .next t → t.mode = s.mode ∨
    (s.mode = .running ∧ t.mode = .awaitKey ∧ ∃ x, s.Runs (.ldVxK x) ∧ t.kreg = x) ∨
    (s.mode = .awaitKey ∧ t.mode = .running ∧ s.CoreIsNext ∧ ∃ k < 16, s.keys.getLsbD k = true) ∨
    (s.mode = .running ∧ t.mode = .halted ∧ s.CoreIsNext ∧ t.fault.isSome = true) ∨
    (∃ rom, s.nextEvent = .boot rom)

/-- 10_state.md R28, 20_memory.md R55: KEY and quit are the host's: a pass or a tick changes neither, nor FONT, and it
uses up one event of the schedule (log 1). -/
def Obligations.HostInputsChangeOnlyByTheHost : Prop :=
  ∀ s t : State, (s.CoreIsNext ∨ s.nextEvent = .tick) → step s = .next t →
    t.keys = s.keys ∧ t.quit = s.quit ∧ t.font = s.font ∧ t.agenda = s.atPass.agenda ∧ t.later = s.atPass.later

/-- 10_state.md R23: the value of IR between steps has no effect on what a step does to anything else, and a pass that
runs an instruction overwrites it before use. -/
def Obligations.InstructionRegisterHasNoInfluence : Prop :=
  ∀ (s : State) (w : Word),
    mapNext (fun t => { t with ir := 0#16 }) (step { s with ir := w }) =
      mapNext (fun t => { t with ir := 0#16 }) (step s) ∧
    (∀ i, s.Runs i → ∀ t, step s = .next t → t.mode ≠ .halted → step { s with ir := w } = .next t)

/-! ### Invariants -/

/-- The state after reset satisfies the invariant. -/
def Obligations.ResetSatisfiesTheInvariant : Prop := State.reset.Inv

/-- 70_reset_and_hazards.md R167 to R170: boot establishes the invariant from any state at all. -/
def Obligations.BootEstablishesTheInvariant : Prop := ∀ (s : State) (rom : List Byte), (s.boot rom).Inv

/-- 10_state.md R18, R21, R25 and log 8: every step keeps the invariant: memory stays in canonical form, FAULT holds a
record exactly in HALTED, pc stays at or below 0x10FE so that it never wraps, and live stack slots hold what a call
pushed. -/
def Obligations.EveryStepKeepsTheInvariant : Prop := ∀ s t : State, s.Inv → step s = .next t → t.Inv
end

