-- ==== Sys2Proof/Laws/State.lean ====
section
/-! SUPPORT. Sys2Proof/Laws/State.lean: one lemma per field per update, true by rfl, so that no proof unfolds a record
update; then the same for the three readers (general register, memory byte, pixel). -/

namespace Sys2Proof.Machine

section
variable (s : State)

/-! #### setReg -/

@[simp] theorem State.setReg_v (x : Reg) (b : Byte) : (s.setReg x b).v = s.v.set x.val b x.isLt := rfl
@[simp] theorem State.setReg_idx (x : Reg) (b : Byte) : (s.setReg x b).idx = s.idx := rfl
@[simp] theorem State.setReg_pc (x : Reg) (b : Byte) : (s.setReg x b).pc = s.pc := rfl
@[simp] theorem State.setReg_sp (x : Reg) (b : Byte) : (s.setReg x b).sp = s.sp := rfl
@[simp] theorem State.setReg_stk (x : Reg) (b : Byte) : (s.setReg x b).stk = s.stk := rfl
@[simp] theorem State.setReg_dt (x : Reg) (b : Byte) : (s.setReg x b).dt = s.dt := rfl
@[simp] theorem State.setReg_st (x : Reg) (b : Byte) : (s.setReg x b).st = s.st := rfl
@[simp] theorem State.setReg_ir (x : Reg) (b : Byte) : (s.setReg x b).ir = s.ir := rfl
@[simp] theorem State.setReg_mode (x : Reg) (b : Byte) : (s.setReg x b).mode = s.mode := rfl
@[simp] theorem State.setReg_kreg (x : Reg) (b : Byte) : (s.setReg x b).kreg = s.kreg := rfl
@[simp] theorem State.setReg_fault (x : Reg) (b : Byte) : (s.setReg x b).fault = s.fault := rfl
@[simp] theorem State.setReg_mem (x : Reg) (b : Byte) : (s.setReg x b).mem = s.mem := rfl
@[simp] theorem State.setReg_fb (x : Reg) (b : Byte) : (s.setReg x b).fb = s.fb := rfl
@[simp] theorem State.setReg_keys (x : Reg) (b : Byte) : (s.setReg x b).keys = s.keys := rfl
@[simp] theorem State.setReg_quit (x : Reg) (b : Byte) : (s.setReg x b).quit = s.quit := rfl
@[simp] theorem State.setReg_draws (x : Reg) (b : Byte) : (s.setReg x b).draws = s.draws := rfl
@[simp] theorem State.setReg_agenda (x : Reg) (b : Byte) : (s.setReg x b).agenda = s.agenda := rfl
@[simp] theorem State.setReg_later (x : Reg) (b : Byte) : (s.setReg x b).later = s.later := rfl
@[simp] theorem State.setReg_font (x : Reg) (b : Byte) : (s.setReg x b).font = s.font := rfl
@[simp] theorem State.setReg_drawn (x : Reg) (b : Byte) : (s.setReg x b).drawn = s.drawn := rfl
@[simp] theorem State.setReg_readByte (x : Reg) (b : Byte) (i : Nat) : (s.setReg x b).readByte i = s.readByte i := rfl
@[simp] theorem State.setReg_readOut (x : Reg) (b : Byte) (i : Fin 64) (j : Fin 32) :
    (s.setReg x b).readOut i j = s.readOut i j := rfl

/-! #### setIdx -/

@[simp] theorem State.setIdx_v (w : Word) : (s.setIdx w).v = s.v := rfl
@[simp] theorem State.setIdx_idx (w : Word) : (s.setIdx w).idx = w := rfl
@[simp] theorem State.setIdx_pc (w : Word) : (s.setIdx w).pc = s.pc := rfl
@[simp] theorem State.setIdx_sp (w : Word) : (s.setIdx w).sp = s.sp := rfl
@[simp] theorem State.setIdx_stk (w : Word) : (s.setIdx w).stk = s.stk := rfl
@[simp] theorem State.setIdx_dt (w : Word) : (s.setIdx w).dt = s.dt := rfl
@[simp] theorem State.setIdx_st (w : Word) : (s.setIdx w).st = s.st := rfl
@[simp] theorem State.setIdx_ir (w : Word) : (s.setIdx w).ir = s.ir := rfl
@[simp] theorem State.setIdx_mode (w : Word) : (s.setIdx w).mode = s.mode := rfl
@[simp] theorem State.setIdx_kreg (w : Word) : (s.setIdx w).kreg = s.kreg := rfl
@[simp] theorem State.setIdx_fault (w : Word) : (s.setIdx w).fault = s.fault := rfl
@[simp] theorem State.setIdx_mem (w : Word) : (s.setIdx w).mem = s.mem := rfl
@[simp] theorem State.setIdx_fb (w : Word) : (s.setIdx w).fb = s.fb := rfl
@[simp] theorem State.setIdx_keys (w : Word) : (s.setIdx w).keys = s.keys := rfl
@[simp] theorem State.setIdx_quit (w : Word) : (s.setIdx w).quit = s.quit := rfl
@[simp] theorem State.setIdx_draws (w : Word) : (s.setIdx w).draws = s.draws := rfl
@[simp] theorem State.setIdx_agenda (w : Word) : (s.setIdx w).agenda = s.agenda := rfl
@[simp] theorem State.setIdx_later (w : Word) : (s.setIdx w).later = s.later := rfl
@[simp] theorem State.setIdx_font (w : Word) : (s.setIdx w).font = s.font := rfl
@[simp] theorem State.setIdx_drawn (w : Word) : (s.setIdx w).drawn = s.drawn := rfl
@[simp] theorem State.setIdx_reg (w : Word) (r : Reg) : (s.setIdx w).reg r = s.reg r := rfl
@[simp] theorem State.setIdx_readByte (w : Word) (i : Nat) : (s.setIdx w).readByte i = s.readByte i := rfl
@[simp] theorem State.setIdx_readOut (w : Word) (i : Fin 64) (j : Fin 32) :
    (s.setIdx w).readOut i j = s.readOut i j := rfl

/-! #### setPc -/

@[simp] theorem State.setPc_v (w : Word) : (s.setPc w).v = s.v := rfl
@[simp] theorem State.setPc_idx (w : Word) : (s.setPc w).idx = s.idx := rfl
@[simp] theorem State.setPc_pc (w : Word) : (s.setPc w).pc = w := rfl
@[simp] theorem State.setPc_sp (w : Word) : (s.setPc w).sp = s.sp := rfl
@[simp] theorem State.setPc_stk (w : Word) : (s.setPc w).stk = s.stk := rfl
@[simp] theorem State.setPc_dt (w : Word) : (s.setPc w).dt = s.dt := rfl
@[simp] theorem State.setPc_st (w : Word) : (s.setPc w).st = s.st := rfl
@[simp] theorem State.setPc_ir (w : Word) : (s.setPc w).ir = s.ir := rfl
@[simp] theorem State.setPc_mode (w : Word) : (s.setPc w).mode = s.mode := rfl
@[simp] theorem State.setPc_kreg (w : Word) : (s.setPc w).kreg = s.kreg := rfl
@[simp] theorem State.setPc_fault (w : Word) : (s.setPc w).fault = s.fault := rfl
@[simp] theorem State.setPc_mem (w : Word) : (s.setPc w).mem = s.mem := rfl
@[simp] theorem State.setPc_fb (w : Word) : (s.setPc w).fb = s.fb := rfl
@[simp] theorem State.setPc_keys (w : Word) : (s.setPc w).keys = s.keys := rfl
@[simp] theorem State.setPc_quit (w : Word) : (s.setPc w).quit = s.quit := rfl
@[simp] theorem State.setPc_draws (w : Word) : (s.setPc w).draws = s.draws := rfl
@[simp] theorem State.setPc_agenda (w : Word) : (s.setPc w).agenda = s.agenda := rfl
@[simp] theorem State.setPc_later (w : Word) : (s.setPc w).later = s.later := rfl
@[simp] theorem State.setPc_font (w : Word) : (s.setPc w).font = s.font := rfl
@[simp] theorem State.setPc_drawn (w : Word) : (s.setPc w).drawn = s.drawn := rfl
@[simp] theorem State.setPc_reg (w : Word) (r : Reg) : (s.setPc w).reg r = s.reg r := rfl
@[simp] theorem State.setPc_readByte (w : Word) (i : Nat) : (s.setPc w).readByte i = s.readByte i := rfl
@[simp] theorem State.setPc_readOut (w : Word) (i : Fin 64) (j : Fin 32) :
    (s.setPc w).readOut i j = s.readOut i j := rfl

/-! #### setDt -/

@[simp] theorem State.setDt_v (b : Byte) : (s.setDt b).v = s.v := rfl
@[simp] theorem State.setDt_idx (b : Byte) : (s.setDt b).idx = s.idx := rfl
@[simp] theorem State.setDt_pc (b : Byte) : (s.setDt b).pc = s.pc := rfl
@[simp] theorem State.setDt_sp (b : Byte) : (s.setDt b).sp = s.sp := rfl
@[simp] theorem State.setDt_stk (b : Byte) : (s.setDt b).stk = s.stk := rfl
@[simp] theorem State.setDt_dt (b : Byte) : (s.setDt b).dt = b := rfl
@[simp] theorem State.setDt_st (b : Byte) : (s.setDt b).st = s.st := rfl
@[simp] theorem State.setDt_ir (b : Byte) : (s.setDt b).ir = s.ir := rfl
@[simp] theorem State.setDt_mode (b : Byte) : (s.setDt b).mode = s.mode := rfl
@[simp] theorem State.setDt_kreg (b : Byte) : (s.setDt b).kreg = s.kreg := rfl
@[simp] theorem State.setDt_fault (b : Byte) : (s.setDt b).fault = s.fault := rfl
@[simp] theorem State.setDt_mem (b : Byte) : (s.setDt b).mem = s.mem := rfl
@[simp] theorem State.setDt_fb (b : Byte) : (s.setDt b).fb = s.fb := rfl
@[simp] theorem State.setDt_keys (b : Byte) : (s.setDt b).keys = s.keys := rfl
@[simp] theorem State.setDt_quit (b : Byte) : (s.setDt b).quit = s.quit := rfl
@[simp] theorem State.setDt_draws (b : Byte) : (s.setDt b).draws = s.draws := rfl
@[simp] theorem State.setDt_agenda (b : Byte) : (s.setDt b).agenda = s.agenda := rfl
@[simp] theorem State.setDt_later (b : Byte) : (s.setDt b).later = s.later := rfl
@[simp] theorem State.setDt_font (b : Byte) : (s.setDt b).font = s.font := rfl
@[simp] theorem State.setDt_drawn (b : Byte) : (s.setDt b).drawn = s.drawn := rfl
@[simp] theorem State.setDt_reg (b : Byte) (r : Reg) : (s.setDt b).reg r = s.reg r := rfl
@[simp] theorem State.setDt_readByte (b : Byte) (i : Nat) : (s.setDt b).readByte i = s.readByte i := rfl
@[simp] theorem State.setDt_readOut (b : Byte) (i : Fin 64) (j : Fin 32) :
    (s.setDt b).readOut i j = s.readOut i j := rfl

/-! #### setSt -/

@[simp] theorem State.setSt_v (b : Byte) : (s.setSt b).v = s.v := rfl
@[simp] theorem State.setSt_idx (b : Byte) : (s.setSt b).idx = s.idx := rfl
@[simp] theorem State.setSt_pc (b : Byte) : (s.setSt b).pc = s.pc := rfl
@[simp] theorem State.setSt_sp (b : Byte) : (s.setSt b).sp = s.sp := rfl
@[simp] theorem State.setSt_stk (b : Byte) : (s.setSt b).stk = s.stk := rfl
@[simp] theorem State.setSt_dt (b : Byte) : (s.setSt b).dt = s.dt := rfl
@[simp] theorem State.setSt_st (b : Byte) : (s.setSt b).st = b := rfl
@[simp] theorem State.setSt_ir (b : Byte) : (s.setSt b).ir = s.ir := rfl
@[simp] theorem State.setSt_mode (b : Byte) : (s.setSt b).mode = s.mode := rfl
@[simp] theorem State.setSt_kreg (b : Byte) : (s.setSt b).kreg = s.kreg := rfl
@[simp] theorem State.setSt_fault (b : Byte) : (s.setSt b).fault = s.fault := rfl
@[simp] theorem State.setSt_mem (b : Byte) : (s.setSt b).mem = s.mem := rfl
@[simp] theorem State.setSt_fb (b : Byte) : (s.setSt b).fb = s.fb := rfl
@[simp] theorem State.setSt_keys (b : Byte) : (s.setSt b).keys = s.keys := rfl
@[simp] theorem State.setSt_quit (b : Byte) : (s.setSt b).quit = s.quit := rfl
@[simp] theorem State.setSt_draws (b : Byte) : (s.setSt b).draws = s.draws := rfl
@[simp] theorem State.setSt_agenda (b : Byte) : (s.setSt b).agenda = s.agenda := rfl
@[simp] theorem State.setSt_later (b : Byte) : (s.setSt b).later = s.later := rfl
@[simp] theorem State.setSt_font (b : Byte) : (s.setSt b).font = s.font := rfl
@[simp] theorem State.setSt_drawn (b : Byte) : (s.setSt b).drawn = s.drawn := rfl
@[simp] theorem State.setSt_reg (b : Byte) (r : Reg) : (s.setSt b).reg r = s.reg r := rfl
@[simp] theorem State.setSt_readByte (b : Byte) (i : Nat) : (s.setSt b).readByte i = s.readByte i := rfl
@[simp] theorem State.setSt_readOut (b : Byte) (i : Fin 64) (j : Fin 32) :
    (s.setSt b).readOut i j = s.readOut i j := rfl

/-! #### setFb -/

@[simp] theorem State.setFb_v (fb : Framebuffer) : (s.setFb fb).v = s.v := rfl
@[simp] theorem State.setFb_idx (fb : Framebuffer) : (s.setFb fb).idx = s.idx := rfl
@[simp] theorem State.setFb_pc (fb : Framebuffer) : (s.setFb fb).pc = s.pc := rfl
@[simp] theorem State.setFb_sp (fb : Framebuffer) : (s.setFb fb).sp = s.sp := rfl
@[simp] theorem State.setFb_stk (fb : Framebuffer) : (s.setFb fb).stk = s.stk := rfl
@[simp] theorem State.setFb_dt (fb : Framebuffer) : (s.setFb fb).dt = s.dt := rfl
@[simp] theorem State.setFb_st (fb : Framebuffer) : (s.setFb fb).st = s.st := rfl
@[simp] theorem State.setFb_ir (fb : Framebuffer) : (s.setFb fb).ir = s.ir := rfl
@[simp] theorem State.setFb_mode (fb : Framebuffer) : (s.setFb fb).mode = s.mode := rfl
@[simp] theorem State.setFb_kreg (fb : Framebuffer) : (s.setFb fb).kreg = s.kreg := rfl
@[simp] theorem State.setFb_fault (fb : Framebuffer) : (s.setFb fb).fault = s.fault := rfl
@[simp] theorem State.setFb_mem (fb : Framebuffer) : (s.setFb fb).mem = s.mem := rfl
@[simp] theorem State.setFb_fb (fb : Framebuffer) : (s.setFb fb).fb = fb := rfl
@[simp] theorem State.setFb_keys (fb : Framebuffer) : (s.setFb fb).keys = s.keys := rfl
@[simp] theorem State.setFb_quit (fb : Framebuffer) : (s.setFb fb).quit = s.quit := rfl
@[simp] theorem State.setFb_draws (fb : Framebuffer) : (s.setFb fb).draws = s.draws := rfl
@[simp] theorem State.setFb_agenda (fb : Framebuffer) : (s.setFb fb).agenda = s.agenda := rfl
@[simp] theorem State.setFb_later (fb : Framebuffer) : (s.setFb fb).later = s.later := rfl
@[simp] theorem State.setFb_font (fb : Framebuffer) : (s.setFb fb).font = s.font := rfl
@[simp] theorem State.setFb_drawn (fb : Framebuffer) : (s.setFb fb).drawn = s.drawn := rfl
@[simp] theorem State.setFb_reg (fb : Framebuffer) (r : Reg) : (s.setFb fb).reg r = s.reg r := rfl
@[simp] theorem State.setFb_readByte (fb : Framebuffer) (i : Nat) : (s.setFb fb).readByte i = s.readByte i := rfl

/-! #### setMem -/

@[simp] theorem State.setMem_v (m : Memory) : (s.setMem m).v = s.v := rfl
@[simp] theorem State.setMem_idx (m : Memory) : (s.setMem m).idx = s.idx := rfl
@[simp] theorem State.setMem_pc (m : Memory) : (s.setMem m).pc = s.pc := rfl
@[simp] theorem State.setMem_sp (m : Memory) : (s.setMem m).sp = s.sp := rfl
@[simp] theorem State.setMem_stk (m : Memory) : (s.setMem m).stk = s.stk := rfl
@[simp] theorem State.setMem_dt (m : Memory) : (s.setMem m).dt = s.dt := rfl
@[simp] theorem State.setMem_st (m : Memory) : (s.setMem m).st = s.st := rfl
@[simp] theorem State.setMem_ir (m : Memory) : (s.setMem m).ir = s.ir := rfl
@[simp] theorem State.setMem_mode (m : Memory) : (s.setMem m).mode = s.mode := rfl
@[simp] theorem State.setMem_kreg (m : Memory) : (s.setMem m).kreg = s.kreg := rfl
@[simp] theorem State.setMem_fault (m : Memory) : (s.setMem m).fault = s.fault := rfl
@[simp] theorem State.setMem_mem (m : Memory) : (s.setMem m).mem = m := rfl
@[simp] theorem State.setMem_fb (m : Memory) : (s.setMem m).fb = s.fb := rfl
@[simp] theorem State.setMem_keys (m : Memory) : (s.setMem m).keys = s.keys := rfl
@[simp] theorem State.setMem_quit (m : Memory) : (s.setMem m).quit = s.quit := rfl
@[simp] theorem State.setMem_draws (m : Memory) : (s.setMem m).draws = s.draws := rfl
@[simp] theorem State.setMem_agenda (m : Memory) : (s.setMem m).agenda = s.agenda := rfl
@[simp] theorem State.setMem_later (m : Memory) : (s.setMem m).later = s.later := rfl
@[simp] theorem State.setMem_font (m : Memory) : (s.setMem m).font = s.font := rfl
@[simp] theorem State.setMem_drawn (m : Memory) : (s.setMem m).drawn = s.drawn := rfl
@[simp] theorem State.setMem_reg (m : Memory) (r : Reg) : (s.setMem m).reg r = s.reg r := rfl
@[simp] theorem State.setMem_readOut (m : Memory) (i : Fin 64) (j : Fin 32) :
    (s.setMem m).readOut i j = s.readOut i j := rfl

/-! #### awaitKeyInto -/

@[simp] theorem State.awaitKeyInto_v (x : Reg) : (s.awaitKeyInto x).v = s.v := rfl
@[simp] theorem State.awaitKeyInto_idx (x : Reg) : (s.awaitKeyInto x).idx = s.idx := rfl
@[simp] theorem State.awaitKeyInto_pc (x : Reg) : (s.awaitKeyInto x).pc = s.pc := rfl
@[simp] theorem State.awaitKeyInto_sp (x : Reg) : (s.awaitKeyInto x).sp = s.sp := rfl
@[simp] theorem State.awaitKeyInto_stk (x : Reg) : (s.awaitKeyInto x).stk = s.stk := rfl
@[simp] theorem State.awaitKeyInto_dt (x : Reg) : (s.awaitKeyInto x).dt = s.dt := rfl
@[simp] theorem State.awaitKeyInto_st (x : Reg) : (s.awaitKeyInto x).st = s.st := rfl
@[simp] theorem State.awaitKeyInto_ir (x : Reg) : (s.awaitKeyInto x).ir = s.ir := rfl
@[simp] theorem State.awaitKeyInto_mode (x : Reg) : (s.awaitKeyInto x).mode = .awaitKey := rfl
@[simp] theorem State.awaitKeyInto_kreg (x : Reg) : (s.awaitKeyInto x).kreg = x := rfl
@[simp] theorem State.awaitKeyInto_fault (x : Reg) : (s.awaitKeyInto x).fault = s.fault := rfl
@[simp] theorem State.awaitKeyInto_mem (x : Reg) : (s.awaitKeyInto x).mem = s.mem := rfl
@[simp] theorem State.awaitKeyInto_fb (x : Reg) : (s.awaitKeyInto x).fb = s.fb := rfl
@[simp] theorem State.awaitKeyInto_keys (x : Reg) : (s.awaitKeyInto x).keys = s.keys := rfl
@[simp] theorem State.awaitKeyInto_quit (x : Reg) : (s.awaitKeyInto x).quit = s.quit := rfl
@[simp] theorem State.awaitKeyInto_draws (x : Reg) : (s.awaitKeyInto x).draws = s.draws := rfl
@[simp] theorem State.awaitKeyInto_agenda (x : Reg) : (s.awaitKeyInto x).agenda = s.agenda := rfl
@[simp] theorem State.awaitKeyInto_later (x : Reg) : (s.awaitKeyInto x).later = s.later := rfl
@[simp] theorem State.awaitKeyInto_font (x : Reg) : (s.awaitKeyInto x).font = s.font := rfl
@[simp] theorem State.awaitKeyInto_drawn (x : Reg) : (s.awaitKeyInto x).drawn = s.drawn := rfl
@[simp] theorem State.awaitKeyInto_reg (x : Reg) (r : Reg) : (s.awaitKeyInto x).reg r = s.reg r := rfl
@[simp] theorem State.awaitKeyInto_readByte (x : Reg) (i : Nat) : (s.awaitKeyInto x).readByte i = s.readByte i := rfl
@[simp] theorem State.awaitKeyInto_readOut (x : Reg) (i : Fin 64) (j : Fin 32) :
    (s.awaitKeyInto x).readOut i j = s.readOut i j := rfl

/-! #### resume -/

@[simp] theorem State.resume_v : (s.resume).v = s.v := rfl
@[simp] theorem State.resume_idx : (s.resume).idx = s.idx := rfl
@[simp] theorem State.resume_pc : (s.resume).pc = s.pc := rfl
@[simp] theorem State.resume_sp : (s.resume).sp = s.sp := rfl
@[simp] theorem State.resume_stk : (s.resume).stk = s.stk := rfl
@[simp] theorem State.resume_dt : (s.resume).dt = s.dt := rfl
@[simp] theorem State.resume_st : (s.resume).st = s.st := rfl
@[simp] theorem State.resume_ir : (s.resume).ir = s.ir := rfl
@[simp] theorem State.resume_mode : (s.resume).mode = .running := rfl
@[simp] theorem State.resume_kreg : (s.resume).kreg = s.kreg := rfl
@[simp] theorem State.resume_fault : (s.resume).fault = s.fault := rfl
@[simp] theorem State.resume_mem : (s.resume).mem = s.mem := rfl
@[simp] theorem State.resume_fb : (s.resume).fb = s.fb := rfl
@[simp] theorem State.resume_keys : (s.resume).keys = s.keys := rfl
@[simp] theorem State.resume_quit : (s.resume).quit = s.quit := rfl
@[simp] theorem State.resume_draws : (s.resume).draws = s.draws := rfl
@[simp] theorem State.resume_agenda : (s.resume).agenda = s.agenda := rfl
@[simp] theorem State.resume_later : (s.resume).later = s.later := rfl
@[simp] theorem State.resume_font : (s.resume).font = s.font := rfl
@[simp] theorem State.resume_drawn : (s.resume).drawn = s.drawn := rfl
@[simp] theorem State.resume_reg (r : Reg) : (s.resume).reg r = s.reg r := rfl
@[simp] theorem State.resume_readByte (i : Nat) : (s.resume).readByte i = s.readByte i := rfl
@[simp] theorem State.resume_readOut (i : Fin 64) (j : Fin 32) :
    (s.resume).readOut i j = s.readOut i j := rfl

/-! #### loadRegs -/

@[simp] theorem State.loadRegs_v (bs : List Byte) : (s.loadRegs bs).v = setRegsFrom 0 bs s.v := rfl
@[simp] theorem State.loadRegs_idx (bs : List Byte) : (s.loadRegs bs).idx = s.idx := rfl
@[simp] theorem State.loadRegs_pc (bs : List Byte) : (s.loadRegs bs).pc = s.pc := rfl
@[simp] theorem State.loadRegs_sp (bs : List Byte) : (s.loadRegs bs).sp = s.sp := rfl
@[simp] theorem State.loadRegs_stk (bs : List Byte) : (s.loadRegs bs).stk = s.stk := rfl
@[simp] theorem State.loadRegs_dt (bs : List Byte) : (s.loadRegs bs).dt = s.dt := rfl
@[simp] theorem State.loadRegs_st (bs : List Byte) : (s.loadRegs bs).st = s.st := rfl
@[simp] theorem State.loadRegs_ir (bs : List Byte) : (s.loadRegs bs).ir = s.ir := rfl
@[simp] theorem State.loadRegs_mode (bs : List Byte) : (s.loadRegs bs).mode = s.mode := rfl
@[simp] theorem State.loadRegs_kreg (bs : List Byte) : (s.loadRegs bs).kreg = s.kreg := rfl
@[simp] theorem State.loadRegs_fault (bs : List Byte) : (s.loadRegs bs).fault = s.fault := rfl
@[simp] theorem State.loadRegs_mem (bs : List Byte) : (s.loadRegs bs).mem = s.mem := rfl
@[simp] theorem State.loadRegs_fb (bs : List Byte) : (s.loadRegs bs).fb = s.fb := rfl
@[simp] theorem State.loadRegs_keys (bs : List Byte) : (s.loadRegs bs).keys = s.keys := rfl
@[simp] theorem State.loadRegs_quit (bs : List Byte) : (s.loadRegs bs).quit = s.quit := rfl
@[simp] theorem State.loadRegs_draws (bs : List Byte) : (s.loadRegs bs).draws = s.draws := rfl
@[simp] theorem State.loadRegs_agenda (bs : List Byte) : (s.loadRegs bs).agenda = s.agenda := rfl
@[simp] theorem State.loadRegs_later (bs : List Byte) : (s.loadRegs bs).later = s.later := rfl
@[simp] theorem State.loadRegs_font (bs : List Byte) : (s.loadRegs bs).font = s.font := rfl
@[simp] theorem State.loadRegs_drawn (bs : List Byte) : (s.loadRegs bs).drawn = s.drawn := rfl
@[simp] theorem State.loadRegs_readByte (bs : List Byte) (i : Nat) : (s.loadRegs bs).readByte i = s.readByte i := rfl
@[simp] theorem State.loadRegs_readOut (bs : List Byte) (i : Fin 64) (j : Fin 32) :
    (s.loadRegs bs).readOut i j = s.readOut i j := rfl

/-! #### halt -/

@[simp] theorem State.halt_v (k : FailureKind) (w : Option Word) : (s.halt k w).v = s.v := rfl
@[simp] theorem State.halt_idx (k : FailureKind) (w : Option Word) : (s.halt k w).idx = s.idx := rfl
@[simp] theorem State.halt_pc (k : FailureKind) (w : Option Word) : (s.halt k w).pc = s.pc := rfl
@[simp] theorem State.halt_sp (k : FailureKind) (w : Option Word) : (s.halt k w).sp = s.sp := rfl
@[simp] theorem State.halt_stk (k : FailureKind) (w : Option Word) : (s.halt k w).stk = s.stk := rfl
@[simp] theorem State.halt_dt (k : FailureKind) (w : Option Word) : (s.halt k w).dt = s.dt := rfl
@[simp] theorem State.halt_st (k : FailureKind) (w : Option Word) : (s.halt k w).st = s.st := rfl
@[simp] theorem State.halt_ir (k : FailureKind) (w : Option Word) : (s.halt k w).ir = s.ir := rfl
@[simp] theorem State.halt_mode (k : FailureKind) (w : Option Word) : (s.halt k w).mode = .halted := rfl
@[simp] theorem State.halt_kreg (k : FailureKind) (w : Option Word) : (s.halt k w).kreg = s.kreg := rfl
@[simp] theorem State.halt_fault (k : FailureKind) (w : Option Word) : (s.halt k w).fault = some ⟨k, w, some s.pc⟩ := rfl
@[simp] theorem State.halt_mem (k : FailureKind) (w : Option Word) : (s.halt k w).mem = s.mem := rfl
@[simp] theorem State.halt_fb (k : FailureKind) (w : Option Word) : (s.halt k w).fb = s.fb := rfl
@[simp] theorem State.halt_keys (k : FailureKind) (w : Option Word) : (s.halt k w).keys = s.keys := rfl
@[simp] theorem State.halt_quit (k : FailureKind) (w : Option Word) : (s.halt k w).quit = s.quit := rfl
@[simp] theorem State.halt_draws (k : FailureKind) (w : Option Word) : (s.halt k w).draws = s.draws := rfl
@[simp] theorem State.halt_agenda (k : FailureKind) (w : Option Word) : (s.halt k w).agenda = s.agenda := rfl
@[simp] theorem State.halt_later (k : FailureKind) (w : Option Word) : (s.halt k w).later = s.later := rfl
@[simp] theorem State.halt_font (k : FailureKind) (w : Option Word) : (s.halt k w).font = s.font := rfl
@[simp] theorem State.halt_drawn (k : FailureKind) (w : Option Word) : (s.halt k w).drawn = s.drawn := rfl
@[simp] theorem State.halt_reg (k : FailureKind) (w : Option Word) (r : Reg) : (s.halt k w).reg r = s.reg r := rfl
@[simp] theorem State.halt_readByte (k : FailureKind) (w : Option Word) (i : Nat) : (s.halt k w).readByte i = s.readByte i := rfl
@[simp] theorem State.halt_readOut (k : FailureKind) (w : Option Word) (i : Fin 64) (j : Fin 32) :
    (s.halt k w).readOut i j = s.readOut i j := rfl

/-! #### fetched -/

@[simp] theorem State.fetched_v (w : Word) : (s.fetched w).v = s.v := rfl
@[simp] theorem State.fetched_idx (w : Word) : (s.fetched w).idx = s.idx := rfl
@[simp] theorem State.fetched_pc (w : Word) : (s.fetched w).pc = s.pc + 2#16 := rfl
@[simp] theorem State.fetched_sp (w : Word) : (s.fetched w).sp = s.sp := rfl
@[simp] theorem State.fetched_stk (w : Word) : (s.fetched w).stk = s.stk := rfl
@[simp] theorem State.fetched_dt (w : Word) : (s.fetched w).dt = s.dt := rfl
@[simp] theorem State.fetched_st (w : Word) : (s.fetched w).st = s.st := rfl
@[simp] theorem State.fetched_ir (w : Word) : (s.fetched w).ir = w := rfl
@[simp] theorem State.fetched_mode (w : Word) : (s.fetched w).mode = s.mode := rfl
@[simp] theorem State.fetched_kreg (w : Word) : (s.fetched w).kreg = s.kreg := rfl
@[simp] theorem State.fetched_fault (w : Word) : (s.fetched w).fault = s.fault := rfl
@[simp] theorem State.fetched_mem (w : Word) : (s.fetched w).mem = s.mem := rfl
@[simp] theorem State.fetched_fb (w : Word) : (s.fetched w).fb = s.fb := rfl
@[simp] theorem State.fetched_keys (w : Word) : (s.fetched w).keys = s.keys := rfl
@[simp] theorem State.fetched_quit (w : Word) : (s.fetched w).quit = s.quit := rfl
@[simp] theorem State.fetched_draws (w : Word) : (s.fetched w).draws = s.draws := rfl
@[simp] theorem State.fetched_agenda (w : Word) : (s.fetched w).agenda = s.agenda := rfl
@[simp] theorem State.fetched_later (w : Word) : (s.fetched w).later = s.later := rfl
@[simp] theorem State.fetched_font (w : Word) : (s.fetched w).font = s.font := rfl
@[simp] theorem State.fetched_drawn (w : Word) : (s.fetched w).drawn = s.drawn := rfl
@[simp] theorem State.fetched_reg (w : Word) (r : Reg) : (s.fetched w).reg r = s.reg r := rfl
@[simp] theorem State.fetched_readByte (w : Word) (i : Nat) : (s.fetched w).readByte i = s.readByte i := rfl
@[simp] theorem State.fetched_readOut (w : Word) (i : Fin 64) (j : Fin 32) :
    (s.fetched w).readOut i j = s.readOut i j := rfl

/-! #### atPass -/

@[simp] theorem State.atPass_v : (s.atPass).v = s.v := rfl
@[simp] theorem State.atPass_idx : (s.atPass).idx = s.idx := rfl
@[simp] theorem State.atPass_pc : (s.atPass).pc = s.pc := rfl
@[simp] theorem State.atPass_sp : (s.atPass).sp = s.sp := rfl
@[simp] theorem State.atPass_stk : (s.atPass).stk = s.stk := rfl
@[simp] theorem State.atPass_dt : (s.atPass).dt = s.dt := rfl
@[simp] theorem State.atPass_st : (s.atPass).st = s.st := rfl
@[simp] theorem State.atPass_ir : (s.atPass).ir = s.ir := rfl
@[simp] theorem State.atPass_mode : (s.atPass).mode = s.mode := rfl
@[simp] theorem State.atPass_kreg : (s.atPass).kreg = s.kreg := rfl
@[simp] theorem State.atPass_fault : (s.atPass).fault = s.fault := rfl
@[simp] theorem State.atPass_mem : (s.atPass).mem = s.mem := rfl
@[simp] theorem State.atPass_fb : (s.atPass).fb = s.fb := rfl
@[simp] theorem State.atPass_keys : (s.atPass).keys = s.keys := rfl
@[simp] theorem State.atPass_quit : (s.atPass).quit = s.quit := rfl
@[simp] theorem State.atPass_draws : (s.atPass).draws = s.draws := rfl
@[simp] theorem State.atPass_agenda : (s.atPass).agenda = s.scheduleRest.1 := rfl
@[simp] theorem State.atPass_later : (s.atPass).later = s.scheduleRest.2 := rfl
@[simp] theorem State.atPass_font : (s.atPass).font = s.font := rfl
@[simp] theorem State.atPass_drawn : (s.atPass).drawn = s.drawn := rfl
@[simp] theorem State.atPass_reg (r : Reg) : (s.atPass).reg r = s.reg r := rfl
@[simp] theorem State.atPass_readByte (i : Nat) : (s.atPass).readByte i = s.readByte i := rfl
@[simp] theorem State.atPass_readOut (i : Fin 64) (j : Fin 32) :
    (s.atPass).readOut i j = s.readOut i j := rfl

end

end Sys2Proof.Machine
end

