-- ==== Sys2Proof/Laws/Blitter.lean ====
section
/-! SUPPORT. Sys2Proof/Laws/Blitter.lean: a draw as a sequence of plotted pixels, and what plotting a list of distinct
pixels does (44_display.md R130, R131). -/

namespace Sys2Proof.Machine

theorem pixel_flip (fb : Framebuffer) (x X : Fin 64) (y Y : Fin 32) :
    Framebuffer.pixel (Framebuffer.flip fb x y) X Y =
      if X = x ∧ Y = y then !Framebuffer.pixel fb x y else Framebuffer.pixel fb X Y := by
  unfold Framebuffer.pixel Framebuffer.flip
  by_cases hy : Y = y
  · subst hy
    by_cases hx : X = x
    · subst hx; simp [Framebuffer.pixel]
    · have : ¬ x.val = X.val := fun h => hx (Fin.ext h.symm)
      simp [hx, this]
  · have : ¬ y.val = Y.val := fun h => hy (Fin.ext h.symm)
    simp [hy, this]

/-- Plot one pixel: what a set sprite bit does to its destination (R128). -/
def plot (d : Drawing) (p : Fin 64 × Fin 32) : Drawing :=
  { fb := Framebuffer.flip d.fb p.1 p.2, collision := d.collision || Framebuffer.pixel d.fb p.1 p.2 }

/-- Plotting distinct pixels inverts exactly those, and collides exactly when one of them was on. -/
theorem foldl_plot (ps : List (Fin 64 × Fin 32)) (h : ps.Nodup) (d : Drawing) :
    (∀ p : Fin 64 × Fin 32, Framebuffer.pixel (ps.foldl plot d).fb p.1 p.2 =
      if p ∈ ps then !Framebuffer.pixel d.fb p.1 p.2 else Framebuffer.pixel d.fb p.1 p.2) ∧
    (ps.foldl plot d).collision = (d.collision || ps.any fun p => Framebuffer.pixel d.fb p.1 p.2) := by
  induction ps generalizing d with
  | nil => simp
  | cons q ps ih =>
    obtain ⟨hq, hps⟩ := List.nodup_cons.mp h
    obtain ⟨h1, h2⟩ := ih hps (plot d q)
    have step : ∀ p : Fin 64 × Fin 32, Framebuffer.pixel (plot d q).fb p.1 p.2 =
        if p = q then !Framebuffer.pixel d.fb q.1 q.2 else Framebuffer.pixel d.fb p.1 p.2 := by
      intro p
      rw [plot, pixel_flip]
      by_cases hp : p = q
      · simp [hp]
      · have : ¬ (p.1 = q.1 ∧ p.2 = q.2) := fun e => hp (Prod.ext e.1 e.2)
        simp [hp, this]
    constructor
    · intro p
      rw [List.foldl_cons, h1, step]
      by_cases hp : p = q
      · subst hp; simp [hq]
      · simp [hp]
    · rw [List.foldl_cons, h2]
      have : (ps.any fun p => Framebuffer.pixel (plot d q).fb p.1 p.2) =
          ps.any fun p => Framebuffer.pixel d.fb p.1 p.2 := by
        have e : ∀ p ∈ ps, Framebuffer.pixel (plot d q).fb p.1 p.2 = Framebuffer.pixel d.fb p.1 p.2 := by
          intro p hp
          rw [step, if_neg]
          rintro rfl; exact hq hp
        rw [Bool.eq_iff_iff, List.any_eq_true, List.any_eq_true]
        exact exists_congr fun p => and_congr_right fun hp => by rw [e p hp]
      rw [this]
      simp [plot, Bool.or_assoc]

/-- The pixels a sprite row plots, from left to right. -/
def rowPixels (px py r : Nat) (b : Byte) : List (Fin 64 × Fin 32) :=
  ((List.range 8).filter fun c => spriteBit b c).map fun c => (wrapColumn px c, wrapRow py r)

/-- The pixels the rows of a sprite plot, from row `r` downward. -/
def spritePixels (px py : Nat) : Nat → List Byte → List (Fin 64 × Fin 32)
  | _, [] => []
  | r, b :: bs => rowPixels px py r b ++ spritePixels px py (r + 1) bs

theorem drawRow_eq_plot (px py r : Nat) (b : Byte) (d : Drawing) :
    drawRow px py r b d = (rowPixels px py r b).foldl plot d := by
  rw [rowPixels, List.foldl_map, List.foldl_filter]
  rfl

theorem drawRows_eq_plot (px py r : Nat) (bs : List Byte) (d : Drawing) :
    drawRows px py r bs d = (spritePixels px py r bs).foldl plot d := by
  induction bs generalizing r d with
  | nil => rfl
  | cons b bs ih => rw [drawRows, spritePixels, List.foldl_append, ih, drawRow_eq_plot]

theorem mem_rowPixels (px py r : Nat) (b : Byte) (p : Fin 64 × Fin 32) :
    p ∈ rowPixels px py r b ↔ ∃ c < 8, spriteBit b c = true ∧ wrapColumn px c = p.1 ∧ wrapRow py r = p.2 := by
  simp [rowPixels, Prod.ext_iff, and_assoc]

theorem mem_spritePixels (px py r : Nat) (bs : List Byte) (p : Fin 64 × Fin 32) :
    p ∈ spritePixels px py r bs ↔ ∃ k, ∃ h : k < bs.length, ∃ c < 8,
      spriteBit bs[k] c = true ∧ wrapColumn px c = p.1 ∧ wrapRow py (r + k) = p.2 := by
  induction bs generalizing r with
  | nil => simp [spritePixels]
  | cons b bs ih =>
    rw [spritePixels, List.mem_append, mem_rowPixels, ih]
    constructor
    · rintro (⟨c, hc, h⟩ | ⟨k, hk, c, hc, h⟩)
      · exact ⟨0, by simp, c, hc, by simpa using h⟩
      · exact ⟨k + 1, by simpa using hk, c, hc, by simpa [Nat.add_assoc, Nat.add_comm 1] using h⟩
    · rintro ⟨k, hk, c, hc, h⟩
      cases k with
      | zero => exact .inl ⟨c, hc, by simpa using h⟩
      | succ k =>
        exact .inr ⟨k, by simpa using hk, c, hc, by simpa [Nat.add_assoc, Nat.add_comm 1] using h⟩

/-- No pixel is visited twice, since a sprite is 8 columns by at most 32 rows (R130). -/
theorem nodup_spritePixels (px py r : Nat) (bs : List Byte) (h : bs.length ≤ 32) :
    (spritePixels px py r bs).Nodup := by
  induction bs generalizing r with
  | nil => exact List.nodup_nil
  | cons b bs ih =>
    simp only [List.length_cons] at h
    rw [spritePixels, List.nodup_append]
    refine ⟨?_, ih (r + 1) (by omega), ?_⟩
    · rw [rowPixels]
      apply List.Nodup.map_on _ (List.nodup_range.filter _)
      intro c hc c' hc' e
      simp only [List.mem_filter, List.mem_range] at hc hc'
      simp only [Prod.mk.injEq, wrapColumn, Fin.mk.injEq] at e
      omega
    · rintro p hp q hq rfl
      obtain ⟨c, hc, -, -, h1⟩ := (mem_rowPixels _ _ _ _ _).mp hp
      obtain ⟨k, hk, c', hc', -, -, h2⟩ := (mem_spritePixels _ _ _ _ _).mp hq
      rw [← h1] at h2
      simp only [wrapRow, Fin.mk.injEq] at h2
      omega

/-- What drawing a sprite of at most 32 rows does, over the pixels it plots. -/
theorem drawSprite_spec (px py : Nat) (rows : List Byte) (fb : Framebuffer) (h : rows.length ≤ 32) :
    (∀ X Y, Framebuffer.pixel (drawSprite px py rows fb).fb X Y =
      if (X, Y) ∈ spritePixels px py 0 rows then !Framebuffer.pixel fb X Y else Framebuffer.pixel fb X Y) ∧
    ((drawSprite px py rows fb).collision = true ↔
      ∃ p ∈ spritePixels px py 0 rows, Framebuffer.pixel fb p.1 p.2 = true) := by
  rw [drawSprite, drawRows_eq_plot]
  obtain ⟨h1, h2⟩ := foldl_plot _ (nodup_spritePixels px py 0 rows h) { fb := fb, collision := false }
  refine ⟨fun X Y => h1 (X, Y), ?_⟩
  rw [h2]
  simp

/-- The read-out is the pixel of the framebuffer (R134). -/
theorem readOut_eq_pixel (s : State) (x : Fin 64) (y : Fin 32) : s.readOut x y = Framebuffer.pixel s.fb x y := rfl

@[simp] theorem pixel_blank (x : Fin 64) (y : Fin 32) : Framebuffer.pixel blankFramebuffer x y = false := by
  simp [Framebuffer.pixel, blankFramebuffer]

end Sys2Proof.Machine
end

