-- ==== Sys2Proof/Laws/Decode.lean ====
section
/-! SUPPORT. Sys2Proof/Laws/Decode.lean: the fields of a word and the words of fields, as numbers (30_encoding.md R63,
R64), so that facts about encodings are linear arithmetic. -/

namespace Sys2Proof

/-! #### Fields as numbers -/

theorem toNat_opField (w : Word) : (opField w).toNat = w.toNat / 4096 := by
  have := w.isLt
  simp [opField, Nat.shiftRight_eq_div_pow]; omega

theorem val_xField (w : Word) : (xField w).val = w.toNat / 256 % 16 := by
  simp [xField, Nat.shiftRight_eq_div_pow]

theorem val_yField (w : Word) : (yField w).val = w.toNat / 16 % 16 := by
  simp [yField, Nat.shiftRight_eq_div_pow]

theorem toNat_nField (w : Word) : (nField w).toNat = w.toNat % 16 := by
  simp [nField]

theorem toNat_kkField (w : Word) : (kkField w).toNat = w.toNat % 256 := by
  simp [kkField]

theorem toNat_nnnField (w : Word) : (nnnField w).toNat = w.toNat % 4096 := by
  simp [nnnField]

/-! #### Words as numbers -/

theorem toNat_append_add {m n : Nat} (a : BitVec m) (b : BitVec n) : (a ++ b).toNat = a.toNat * 2 ^ n + b.toNat := by
  rw [BitVec.toNat_append, ← Nat.shiftLeft_add_eq_or_of_lt b.isLt, Nat.shiftLeft_eq]

theorem toNat_regBits (x : Reg) : (regBits x).toNat = x.val := by
  simp [regBits]

theorem toNat_nibbles (op : BitVec 4) (x y : Reg) (n : BitVec 4) :
    (nibbles op x y n).toNat = op.toNat * 4096 + x.val * 256 + y.val * 16 + n.toNat := by
  change (op ++ regBits x ++ regBits y ++ n : BitVec (4 + 4 + 4 + 4)).toNat = _
  simp only [toNat_append_add, toNat_regBits]
  omega

theorem toNat_nibblesByte (op : BitVec 4) (x : Reg) (kk : Byte) :
    (nibblesByte op x kk).toNat = op.toNat * 4096 + x.val * 256 + kk.toNat := by
  change (op ++ regBits x ++ kk : BitVec (4 + 4 + 8)).toNat = _
  simp only [toNat_append_add, toNat_regBits]
  omega

theorem toNat_nibbleAddr (op : BitVec 4) (nnn : BitVec 12) :
    (nibbleAddr op nnn).toNat = op.toNat * 4096 + nnn.toNat := by
  change (op ++ nnn : BitVec (4 + 12)).toNat = _
  simp only [toNat_append_add]
  omega

theorem toNat_wordOfBytes (hi lo : Byte) : (wordOfBytes hi lo).toNat = hi.toNat * 256 + lo.toNat := by
  change (hi ++ lo : BitVec (8 + 8)).toNat = _
  simp only [toNat_append_add]
  omega

/-- A word is made of its two bytes, big-endian (20_memory.md R45). -/
theorem wordOfBytes_high_low (w : Word) : wordOfBytes (highByte w) (lowByte w) = w := by
  apply BitVec.eq_of_toNat_eq
  have := w.isLt
  rw [toNat_wordOfBytes]
  simp [highByte, lowByte, Nat.shiftRight_eq_div_pow]
  omega

/-! #### The fields of an encoded word -/

@[simp] theorem opField_nibbles (op : BitVec 4) (x y : Reg) (n : BitVec 4) : opField (nibbles op x y n) = op := by
  apply BitVec.eq_of_toNat_eq
  have := x.isLt; have := y.isLt; have := n.isLt
  rw [toNat_opField, toNat_nibbles]; omega

@[simp] theorem xField_nibbles (op : BitVec 4) (x y : Reg) (n : BitVec 4) : xField (nibbles op x y n) = x := by
  apply Fin.ext
  have := x.isLt; have := y.isLt; have := n.isLt
  rw [val_xField, toNat_nibbles]; omega

@[simp] theorem yField_nibbles (op : BitVec 4) (x y : Reg) (n : BitVec 4) : yField (nibbles op x y n) = y := by
  apply Fin.ext
  have := x.isLt; have := y.isLt; have := n.isLt
  rw [val_yField, toNat_nibbles]; omega

@[simp] theorem nField_nibbles (op : BitVec 4) (x y : Reg) (n : BitVec 4) : nField (nibbles op x y n) = n := by
  apply BitVec.eq_of_toNat_eq
  have := n.isLt
  rw [toNat_nField, toNat_nibbles]; omega

@[simp] theorem opField_nibblesByte (op : BitVec 4) (x : Reg) (kk : Byte) : opField (nibblesByte op x kk) = op := by
  apply BitVec.eq_of_toNat_eq
  have := x.isLt; have := kk.isLt
  rw [toNat_opField, toNat_nibblesByte]; omega

@[simp] theorem xField_nibblesByte (op : BitVec 4) (x : Reg) (kk : Byte) : xField (nibblesByte op x kk) = x := by
  apply Fin.ext
  have := x.isLt; have := kk.isLt
  rw [val_xField, toNat_nibblesByte]; omega

@[simp] theorem kkField_nibblesByte (op : BitVec 4) (x : Reg) (kk : Byte) : kkField (nibblesByte op x kk) = kk := by
  apply BitVec.eq_of_toNat_eq
  have := kk.isLt
  rw [toNat_kkField, toNat_nibblesByte]; omega

@[simp] theorem opField_nibbleAddr (op : BitVec 4) (nnn : BitVec 12) : opField (nibbleAddr op nnn) = op := by
  apply BitVec.eq_of_toNat_eq
  have := nnn.isLt
  rw [toNat_opField, toNat_nibbleAddr]; omega

@[simp] theorem nnnField_nibbleAddr (op : BitVec 4) (nnn : BitVec 12) : nnnField (nibbleAddr op nnn) = nnn := by
  apply BitVec.eq_of_toNat_eq
  have := nnn.isLt
  rw [toNat_nnnField, toNat_nibbleAddr]; omega

/-! #### The masks of R72 and R76 -/

/-- The mask 0xF000 keeps the family. -/
theorem and_F000 (w : Word) : w &&& 0xF000#16 = nibbles (opField w) 0 0 0x0#4 := by
  change _ = (opField w ++ regBits 0 ++ regBits 0 ++ 0x0#4 : BitVec (4 + 4 + 4 + 4))
  apply BitVec.eq_of_getLsbD_eq; intro i hi
  rw [BitVec.getLsbD_and]
  simp only [BitVec.getLsbD_append, opField, BitVec.getLsbD_extractLsb']
  interval_cases i <;> simp <;> decide

/-- The mask 0xF00F keeps the family and the low nibble. -/
theorem and_F00F (w : Word) : w &&& 0xF00F#16 = nibbles (opField w) 0 0 (nField w) := by
  change _ = (opField w ++ regBits 0 ++ regBits 0 ++ nField w : BitVec (4 + 4 + 4 + 4))
  apply BitVec.eq_of_getLsbD_eq; intro i hi
  rw [BitVec.getLsbD_and]
  simp only [BitVec.getLsbD_append, opField, nField, BitVec.getLsbD_extractLsb']
  interval_cases i <;> simp <;> decide

/-- The mask 0xF0FF keeps the family and the low byte. -/
theorem and_F0FF (w : Word) : w &&& 0xF0FF#16 = nibblesByte (opField w) 0 (kkField w) := by
  change _ = (opField w ++ regBits 0 ++ kkField w : BitVec (4 + 4 + 8))
  apply BitVec.eq_of_getLsbD_eq; intro i hi
  rw [BitVec.getLsbD_and]
  simp only [BitVec.getLsbD_append, opField, kkField, BitVec.getLsbD_extractLsb']
  interval_cases i <;> simp <;> decide

/-- Clearing the low nibble (R67). -/
theorem and_FFF0 (w : Word) : w &&& 0xFFF0#16 = nibbles (opField w) (xField w) (yField w) 0x0#4 := by
  apply BitVec.eq_of_toNat_eq
  have h : w &&& 0xFFF0#16 = (w >>> 4) <<< 4 := by
    apply BitVec.eq_of_getLsbD_eq; intro i hi
    rw [BitVec.getLsbD_and]
    interval_cases i <;> simp
  have := w.isLt
  rw [h, toNat_nibbles, toNat_opField, val_xField, val_yField]
  simp [Nat.shiftRight_eq_div_pow, Nat.shiftLeft_eq]
  omega

/-- Clearing the y field (R76). -/
theorem and_FF0F (w : Word) : w &&& 0xFF0F#16 = nibbles (opField w) (xField w) 0 (nField w) := by
  have hx : regBits (xField w) = w.extractLsb' 8 4 := by
    apply BitVec.eq_of_toNat_eq
    rw [toNat_regBits, val_xField]
    simp [Nat.shiftRight_eq_div_pow]
  change _ = (opField w ++ regBits (xField w) ++ regBits 0 ++ nField w : BitVec (4 + 4 + 4 + 4))
  apply BitVec.eq_of_getLsbD_eq; intro i hi
  rw [BitVec.getLsbD_and, hx]
  simp only [BitVec.getLsbD_append, opField, nField, BitVec.getLsbD_extractLsb']
  interval_cases i <;> simp <;> decide

/-! #### What an accepted word is -/

/-- Everything a successful decode can be: the family, and the selector where the family has one (R66 to R71). -/
theorem decodeWord_ok_iff (w : Word) (i : Instr) : decodeWord w = .ok i ↔
    (w = 0x00E0#16 ∧ i = .cls) ∨ (w = 0x00EE#16 ∧ i = .ret) ∨
    (opField w = 0x1#4 ∧ i = .jp (nnnField w)) ∨ (opField w = 0x2#4 ∧ i = .call (nnnField w)) ∨
    (opField w = 0x3#4 ∧ i = .seImm (xField w) (kkField w)) ∨
    (opField w = 0x4#4 ∧ i = .sneImm (xField w) (kkField w)) ∨
    (opField w = 0x5#4 ∧ i = .seReg (xField w) (yField w)) ∨
    (opField w = 0x6#4 ∧ i = .ldImm (xField w) (kkField w)) ∨
    (opField w = 0x7#4 ∧ i = .addImm (xField w) (kkField w)) ∨
    (opField w = 0x8#4 ∧ nField w = 0x0#4 ∧ i = .ldReg (xField w) (yField w)) ∨
    (opField w = 0x8#4 ∧ nField w = 0x1#4 ∧ i = .orReg (xField w) (yField w)) ∨
    (opField w = 0x8#4 ∧ nField w = 0x2#4 ∧ i = .andReg (xField w) (yField w)) ∨
    (opField w = 0x8#4 ∧ nField w = 0x3#4 ∧ i = .xorReg (xField w) (yField w)) ∨
    (opField w = 0x8#4 ∧ nField w = 0x4#4 ∧ i = .addReg (xField w) (yField w)) ∨
    (opField w = 0x8#4 ∧ nField w = 0x5#4 ∧ i = .subReg (xField w) (yField w)) ∨
    (opField w = 0x8#4 ∧ nField w = 0x6#4 ∧ i = .shr (xField w)) ∨
    (opField w = 0x8#4 ∧ nField w = 0x7#4 ∧ i = .subnReg (xField w) (yField w)) ∨
    (opField w = 0x8#4 ∧ nField w = 0xE#4 ∧ i = .shl (xField w)) ∨
    (opField w = 0x9#4 ∧ i = .sneReg (xField w) (yField w)) ∨
    (opField w = 0xA#4 ∧ i = .ldI (nnnField w)) ∨ (opField w = 0xB#4 ∧ i = .jpV0 (nnnField w)) ∨
    (opField w = 0xC#4 ∧ i = .rnd (xField w) (kkField w)) ∨
    (opField w = 0xD#4 ∧ i = .drw (xField w) (yField w) (nField w).toNat) ∨
    (opField w = 0xE#4 ∧ kkField w = 0x9E#8 ∧ i = .skp (xField w)) ∨
    (opField w = 0xE#4 ∧ kkField w = 0xA1#8 ∧ i = .sknp (xField w)) ∨
    (opField w = 0xF#4 ∧ kkField w = 0x07#8 ∧ i = .ldVxDt (xField w)) ∨
    (opField w = 0xF#4 ∧ kkField w = 0x0A#8 ∧ i = .ldVxK (xField w)) ∨
    (opField w = 0xF#4 ∧ kkField w = 0x15#8 ∧ i = .ldDtVx (xField w)) ∨
    (opField w = 0xF#4 ∧ kkField w = 0x18#8 ∧ i = .ldStVx (xField w)) ∨
    (opField w = 0xF#4 ∧ kkField w = 0x1E#8 ∧ i = .addI (xField w)) ∨
    (opField w = 0xF#4 ∧ kkField w = 0x29#8 ∧ i = .ldF (xField w)) ∨
    (opField w = 0xF#4 ∧ kkField w = 0x33#8 ∧ i = .ldB (xField w)) ∨
    (opField w = 0xF#4 ∧ kkField w = 0x55#8 ∧ i = .storeRegs (xField w)) ∨
    (opField w = 0xF#4 ∧ kkField w = 0x65#8 ∧ i = .loadRegs (xField w)) := by
  have ext4 : ∀ (a b : BitVec 4), a = b ↔ a.toNat = b.toNat := fun a b => BitVec.toNat_inj.symm
  have ext8 : ∀ (a b : BitVec 8), a = b ↔ a.toNat = b.toNat := fun a b => BitVec.toNat_inj.symm
  have hop := toNat_opField w
  have hlt : (opField w).toNat < 16 := (opField w).isLt
  have hn : (nField w).toNat < 16 := (nField w).isLt
  have hw : w.toNat / 4096 ≠ 0 → w ≠ 0x00E0#16 ∧ w ≠ 0x00EE#16 := by
    intro h; constructor <;> (rintro rfl; simp at h)
  rw [← hop] at hw
  simp only [ext4]
  unfold decodeWord
  generalize (opField w).toNat = op at *
  interval_cases op
  any_goals
    obtain ⟨h0, h1⟩ := hw (by decide)
    simp [h0, h1, eq_comm]
    done
  · by_cases h0 : w = 0x00E0#16
    · subst h0; simp [decodeFamily0, eq_comm]
    · by_cases h1 : w = 0x00EE#16
      · subst h1; simp [decodeFamily0, eq_comm]
      · simp [decodeFamily0, h0, h1]
  · obtain ⟨h0, h1⟩ := hw (by decide)
    simp only [h0, h1, decodeFamily8]
    generalize (nField w).toNat = n at *
    interval_cases n <;> simp [eq_comm]
  · obtain ⟨h0, h1⟩ := hw (by decide)
    by_cases h2 : kkField w = 0x9E#8
    · simp [h0, h1, h2, decodeFamilyE, eq_comm]
    · by_cases h3 : kkField w = 0xA1#8
      · simp [h0, h1, h3, decodeFamilyE, eq_comm]
      · simp [h0, h1, h2, h3, decodeFamilyE]
  · obtain ⟨h0, h1⟩ := hw (by decide)
    simp only [h0, h1, decodeFamilyF, ext8]
    clear hop hlt hw h0 h1 ext4 ext8
    generalize (kkField w).toNat = kk at *
    split <;> simp_all [eq_comm]

end Sys2Proof
end

