-- ==== Sys2Proof/Laws/Memory.lean ====
section
/-! SUPPORT. Sys2Proof/Laws/Memory.lean: read after write, the canonical form, and everything a memory access can do
(20_memory.md R42, R43). -/

namespace Sys2Proof.Machine

section
variable (base : Nat → Byte)

/-! #### Read after write -/

theorem readByte_erase (m : Memory) (a b : Nat) :
    Memory.readByte base (Memory.erase m a) b = if b = a then base a else Memory.readByte base m b := by
  induction m with
  | nil => by_cases h : b = a <;> simp [Memory.erase, Memory.readByte, h]
  | cons p m ih =>
    obtain ⟨k, c⟩ := p
    by_cases hk : k = a
    · subst hk
      have : Memory.erase ((k, c) :: m) k = Memory.erase m k := by simp [Memory.erase]
      rw [this, ih]
      by_cases h : b = k <;> simp [Memory.readByte, h]
    · have : Memory.erase ((k, c) :: m) a = (k, c) :: Memory.erase m a := by simp [Memory.erase, hk]
      rw [this]
      simp only [Memory.readByte, ih]
      by_cases h : b = k
      · subst h; simp [hk]
      · simp [h]

theorem readByte_insert (m : Memory) (a b : Nat) (v : Byte) (hm : ∀ c ∈ m, c.1 ≠ a) :
    Memory.readByte base (Memory.insert m a v) b = if b = a then v else Memory.readByte base m b := by
  induction m with
  | nil => simp [Memory.insert, Memory.readByte]
  | cons p m ih =>
    obtain ⟨k, c⟩ := p
    have hk : k ≠ a := hm (k, c) (by simp)
    rw [Memory.insert]
    split
    · simp [Memory.readByte]
    · simp only [Memory.readByte, ih fun c hc => hm c (by simp [hc])]
      by_cases h : b = k
      · subst h; simp [hk]
      · simp [h]

theorem erase_ne (m : Memory) (a : Nat) : ∀ c ∈ Memory.erase m a, c.1 ≠ a := by
  intro c hc
  simp [Memory.erase] at hc
  exact hc.2

/-- Read after write: the byte written, and every other byte as before. -/
theorem readByte_writeByte (m : Memory) (a b : Nat) (v : Byte) :
    Memory.readByte base (Memory.writeByte base m a v) b = if b = a then v else Memory.readByte base m b := by
  unfold Memory.writeByte
  split <;> rename_i h
  · simp [readByte_erase, h]
  · rw [readByte_insert base _ _ _ _ (erase_ne m a), readByte_erase]
    by_cases h : b = a <;> simp [h]

/-- Read after a store of several bytes. -/
theorem readByte_writeBytes (m : Memory) (a b : Nat) (bs : List Byte) :
    Memory.readByte base (Memory.writeBytes base m a bs) b =
      if h : a ≤ b ∧ b < a + bs.length then bs[b - a]'(by omega) else Memory.readByte base m b := by
  induction bs generalizing m a with
  | nil =>
    have h : ¬ (a ≤ b ∧ b < a + ([] : List Byte).length) := by simp
    rw [dif_neg h]; rfl
  | cons v bs ih =>
    rw [Memory.writeBytes, ih]
    by_cases h1 : b = a
    · subst h1
      simp [readByte_writeByte]
    · by_cases h2 : a + 1 ≤ b ∧ b < a + 1 + bs.length
      · have h3 : a ≤ b ∧ b < a + (v :: bs).length := by simp; omega
        rw [dif_pos h2, dif_pos h3]
        have h4 : b - a = (b - (a + 1)) + 1 := by omega
        simp [h4]
      · have h3 : ¬ (a ≤ b ∧ b < a + (v :: bs).length) := by simp; omega
        rw [dif_neg h2, dif_neg h3]
        simp [readByte_writeByte, h1]

/-! #### The canonical form -/

theorem wfFrom_mono (m : Memory) (lo lo' : Nat) (h : Memory.wfFrom base lo m = true) (hl : lo' ≤ lo) :
    Memory.wfFrom base lo' m = true := by
  cases m with
  | nil => rfl
  | cons p m =>
    simp only [Memory.wfFrom, Bool.and_eq_true, decide_eq_true_eq] at h ⊢
    exact ⟨⟨⟨by omega, h.1.1.2⟩, h.1.2⟩, h.2⟩

theorem wfFrom_erase (m : Memory) (lo a : Nat) (h : Memory.wfFrom base lo m = true) :
    Memory.wfFrom base lo (Memory.erase m a) = true := by
  induction m generalizing lo with
  | nil => rfl
  | cons p m ih =>
    obtain ⟨k, c⟩ := p
    simp only [Memory.wfFrom, Bool.and_eq_true, decide_eq_true_eq] at h
    by_cases hk : k = a
    · have : Memory.erase ((k, c) :: m) a = Memory.erase m a := by simp [Memory.erase, hk]
      rw [this]
      exact wfFrom_mono base _ _ _ (ih _ h.2) (by omega)
    · have : Memory.erase ((k, c) :: m) a = (k, c) :: Memory.erase m a := by simp [Memory.erase, hk]
      rw [this]
      simp only [Memory.wfFrom, Bool.and_eq_true, decide_eq_true_eq]
      exact ⟨h.1, ih _ h.2⟩

theorem wfFrom_insert (m : Memory) (lo a : Nat) (v : Byte) (h : Memory.wfFrom base lo m = true)
    (hm : ∀ c ∈ m, c.1 ≠ a) (hlo : lo ≤ a) (ha : a < Config.memSize) (hv : v ≠ base a) :
    Memory.wfFrom base lo (Memory.insert m a v) = true := by
  induction m generalizing lo with
  | nil => simp [Memory.insert, Memory.wfFrom, hlo, ha, hv]
  | cons p m ih =>
    obtain ⟨k, c⟩ := p
    have hk : k ≠ a := hm (k, c) (by simp)
    simp only [Memory.wfFrom, Bool.and_eq_true, decide_eq_true_eq] at h
    rw [Memory.insert]
    split <;> rename_i h1
    · simp only [Memory.wfFrom, Bool.and_eq_true, decide_eq_true_eq]
      exact ⟨⟨⟨hlo, ha⟩, by simp [hv]⟩, ⟨⟨by omega, h.1.1.2⟩, h.1.2⟩, h.2⟩
    · simp only [Memory.wfFrom, Bool.and_eq_true, decide_eq_true_eq]
      exact ⟨h.1, ih _ h.2 (fun c hc => hm c (by simp [hc])) (by omega)⟩

/-- A store of one byte keeps the canonical form. -/
theorem wf_writeByte (m : Memory) (a : Nat) (v : Byte) (h : Memory.wf base m = true) (ha : a < Config.memSize) :
    Memory.wf base (Memory.writeByte base m a v) = true := by
  unfold Memory.writeByte
  split <;> rename_i hv
  · exact wfFrom_erase base m 0 a h
  · exact wfFrom_insert base _ 0 a v (wfFrom_erase base m 0 a h) (erase_ne m a) (Nat.zero_le _) ha hv

/-- A store of several bytes keeps the canonical form. -/
theorem wf_writeBytes (m : Memory) (a : Nat) (bs : List Byte) (h : Memory.wf base m = true)
    (ha : a + bs.length ≤ Config.memSize) : Memory.wf base (Memory.writeBytes base m a bs) = true := by
  induction bs generalizing m a with
  | nil => exact h
  | cons v bs ih =>
    simp only [List.length_cons] at ha
    exact ih _ _ (wf_writeByte base m a v h (by omega)) (by omega)

/-- Two canonical memories that read alike at every address are the same list. -/
theorem wfFrom_ext (m m' : Memory) (lo : Nat) (h : Memory.wfFrom base lo m = true)
    (h' : Memory.wfFrom base lo m' = true)
    (hr : ∀ a, Memory.readByte base m a = Memory.readByte base m' a) : m = m' := by
  have below : ∀ (m : Memory) (lo b : Nat), Memory.wfFrom base lo m = true → b < lo →
      Memory.readByte base m b = base b := by
    intro m
    induction m with
    | nil => intros; rfl
    | cons p m ih =>
      intro lo b h hb
      simp only [Memory.wfFrom, Bool.and_eq_true, decide_eq_true_eq] at h
      rw [Memory.readByte, if_neg (by omega)]
      exact ih _ _ h.2 (by omega)
  induction m generalizing m' lo with
  | nil =>
    cases m' with
    | nil => rfl
    | cons p m' =>
      exfalso
      obtain ⟨k, c⟩ := p
      simp only [Memory.wfFrom, Bool.and_eq_true, decide_eq_true_eq] at h'
      have := hr k
      simp [Memory.readByte] at this
      simp [this] at h'
  | cons p m ih =>
    obtain ⟨k, c⟩ := p
    have h0 := h
    simp only [Memory.wfFrom, Bool.and_eq_true, decide_eq_true_eq] at h
    cases m' with
    | nil =>
      exfalso
      have := hr k
      simp [Memory.readByte] at this
      simp [this] at h
    | cons p' m' =>
      obtain ⟨k', c'⟩ := p'
      have h0' := h'
      simp only [Memory.wfFrom, Bool.and_eq_true, decide_eq_true_eq] at h'
      have hk : k = k' := by
        rcases Nat.lt_trichotomy k k' with hlt | heq | hgt
        · have e := hr k
          rw [below ((k', c') :: m') k' k (by simp only [Memory.wfFrom, Bool.and_eq_true, decide_eq_true_eq]; exact ⟨⟨⟨Nat.le_refl _, h'.1.1.2⟩, h'.1.2⟩, h'.2⟩) hlt] at e
          simp [Memory.readByte] at e
          simp [e] at h
        · exact heq
        · have e := hr k'
          rw [below ((k, c) :: m) k k' (by simp only [Memory.wfFrom, Bool.and_eq_true, decide_eq_true_eq]; exact ⟨⟨⟨Nat.le_refl _, h.1.1.2⟩, h.1.2⟩, h.2⟩) hgt] at e
          simp [Memory.readByte] at e
          simp [← e] at h'
      subst hk
      have hc : c = c' := by simpa [Memory.readByte] using hr k
      subst hc
      rw [ih m' (k + 1) h.2 h'.2]
      intro a
      by_cases ha : a = k
      · subst ha
        rw [below m _ _ h.2 (by omega), below m' _ _ h'.2 (by omega)]
      · simpa [Memory.readByte, ha] using hr a

end

/-! #### Accesses of the machine -/

theorem accessOk_iff (addr n : Nat) : accessOk addr n = true ↔ n = 0 ∨ addr + n - 1 ≤ 4095 := by
  simp [accessOk]

/-- `MemRead` answers the bytes in order, or nothing. -/
theorem memRead_eq (s : State) (addr n : Nat) :
    s.memRead addr n = if n = 0 ∨ addr + n - 1 ≤ 4095 then
      some ((List.range n).map fun k => s.readByte (addr + k)) else none := by
  simp [State.memRead, accessOk_iff]

/-- `MemWrite` answers the state with the memory after the store, or nothing. -/
theorem memWrite_eq (s : State) (addr : Nat) (bs : List Byte) :
    s.memWrite addr bs = if bs.length = 0 ∨ addr + bs.length - 1 ≤ 4095 then
      some (s.setMem (Memory.writeBytes (bootByte s.font) s.mem addr bs)) else none := by
  simp [State.memWrite, accessOk_iff]

/-- Reading after a store through the machine's accessors. -/
theorem readByte_setMem_writeBytes (s : State) (addr b : Nat) (bs : List Byte) :
    (s.setMem (Memory.writeBytes (bootByte s.font) s.mem addr bs)).readByte b =
      if h : addr ≤ b ∧ b < addr + bs.length then bs[b - addr]'(by omega) else s.readByte b :=
  readByte_writeBytes (bootByte s.font) s.mem addr b bs

/-- `MemWrite` keeps the canonical form and FONT. -/
theorem memWrite_keeps_wf (s t : State) (addr : Nat) (bs : List Byte) (h : s.MemWf) (ht : s.memWrite addr bs = some t) :
    t.MemWf := by
  rw [memWrite_eq] at ht
  split at ht <;> rename_i hr
  · obtain rfl := Option.some.inj ht
    rcases Nat.eq_zero_or_pos bs.length with h0 | h0
    · rw [List.length_eq_zero_iff] at h0
      subst h0
      exact h
    · exact wf_writeBytes _ _ _ _ h (by unfold Config.memSize; omega)
  · cases ht

/-- Boot contents outside the font table are zero (R51). -/
theorem bootByte_outside (font : Vector Byte 80) (a : Nat) (h : a < 0x050 ∨ 0x0A0 ≤ a) : bootByte font a = 0x00#8 := by
  unfold bootByte
  rw [dif_neg]
  unfold Config.fontBase Config.fontBytes
  omega

/-- Boot contents of the font table are FONT (R51). -/
theorem bootByte_font (font : Vector Byte 80) (k : Fin 80) : bootByte font (0x050 + k.val) = font[k] := by
  unfold bootByte
  rw [dif_pos]
  · simp [Config.fontBase]
  · unfold Config.fontBase Config.fontBytes
    omega

end Sys2Proof.Machine
end

