-- ==== Sys2Proof/Laws/Registers.lean ====
section
/-! SUPPORT. Sys2Proof/Laws/Registers.lean: reading a general register after a write, and the call stack. -/

namespace Sys2Proof.Machine

theorem reg_setReg (s : State) (x y : Reg) (b : Byte) :
    (s.setReg x b).reg y = if y = x then b else s.reg y := by
  simp only [State.reg, State.setReg_v, Vector.getElem_set, eq_comm (a := y), Fin.ext_iff]

@[simp] theorem reg_setReg_same (s : State) (x : Reg) (b : Byte) : (s.setReg x b).reg x = b := by
  simp [reg_setReg]

@[simp] theorem reg_setReg_ne (s : State) {x y : Reg} (b : Byte) (h : y ≠ x) : (s.setReg x b).reg y = s.reg y := by
  simp [reg_setReg, h]

/-- The destination of a flag-writing instruction holds the result, VF the flag where it is another register (R116). -/
theorem reg_setFlagAndReg (s : State) (f b : Byte) (x y : Reg) :
    (s.setFlagAndReg f x b).reg y = if y = x then b else if y = VF then f else s.reg y := by
  simp [State.setFlagAndReg, reg_setReg]

/-- Registers below the start of a run, and beyond its end, keep their value; those in it take the bytes in order. -/
theorem getElem_setRegsFrom (bs : List Byte) (k : Nat) (v : Vector Byte 16) (r : Nat) (hr : r < 16) :
    (setRegsFrom k bs v)[r] = if h : k ≤ r ∧ r < k + bs.length then bs[r - k]'(by omega) else v[r] := by
  induction bs generalizing k v with
  | nil =>
    have h : ¬ (k ≤ r ∧ r < k + ([] : List Byte).length) := by simp
    rw [dif_neg h]; rfl
  | cons b bs ih =>
    rw [setRegsFrom, ih]
    by_cases h1 : r = k
    · subst h1
      simp
    · by_cases h2 : k + 1 ≤ r ∧ r < k + 1 + bs.length
      · have h3 : k ≤ r ∧ r < k + (b :: bs).length := by simp; omega
        rw [dif_pos h2, dif_pos h3]
        have h4 : r - k = (r - (k + 1)) + 1 := by omega
        simp [h4]
      · have h3 : ¬ (k ≤ r ∧ r < k + (b :: bs).length) := by simp; omega
        rw [dif_neg h2, dif_neg h3]
        simp [Ne.symm h1]

/-- `V[r]` after a load of a register run from V0. -/
theorem reg_loadRegs (s : State) (bs : List Byte) (r : Reg) :
    (s.loadRegs bs).reg r = if h : r.val < bs.length then bs[r.val] else s.reg r := by
  simp only [State.reg, State.loadRegs_v, getElem_setRegsFrom]
  simp

@[simp] theorem length_regsUpTo (s : State) (x : Reg) : (s.regsUpTo x).length = x.val + 1 := by
  have := x.isLt
  simp [State.regsUpTo]

theorem getElem_regsUpTo (s : State) (x r : Reg) (h : r.val < (s.regsUpTo x).length) :
    (s.regsUpTo x)[r.val] = s.reg r := by
  simp [State.regsUpTo, State.reg]

/-! #### The call stack -/

/-- Everything a push can do. -/
theorem push_eq_some_iff (s t : State) (w : Word) :
    s.push w = some t ↔ ∃ h : s.sp.val < 16,
      t = { s with stk := s.stk.set s.sp.val w h, sp := ⟨s.sp.val + 1, by omega⟩ } := by
  unfold State.push
  split <;> rename_i h
  · simp [h, eq_comm]
  · simp [h]

theorem push_eq_none_iff (s : State) (w : Word) : s.push w = none ↔ s.sp.val = 16 := by
  have := s.sp.isLt
  unfold State.push
  split <;> simp <;> omega

/-- Everything a pop can do. -/
theorem pop_eq_some_iff (s : State) (p : Word × State) :
    s.pop = some p ↔ ∃ h : 0 < s.sp.val,
      p = (s.stk[s.sp.val - 1]'(by omega), { s with sp := ⟨s.sp.val - 1, by omega⟩ }) := by
  unfold State.pop
  split <;> rename_i h
  · simp [h, eq_comm]
  · simp [h]

theorem pop_eq_none_iff (s : State) : s.pop = none ↔ s.sp.val = 0 := by
  unfold State.pop
  split <;> simp <;> omega

end Sys2Proof.Machine
end

