-- ==== Sys2Proof/Laws/Exec.lean ====
section
/-! SUPPORT. Sys2Proof/Laws/Exec.lean: taking a failure, and the shared operations the meanings end in. -/

namespace Sys2Proof.Machine

/-- Raising a failure is exactly the failure of 60_exceptions.md R144. -/
theorem raise_eq (s : State) (k : FailureKind) : ∃ t, s.raise k = .next t ∧ FailedWith k s t :=
  ⟨_, rfl, rfl, rfl, rfl, fun _ _ => rfl, rfl, ⟨rfl, rfl⟩, ⟨rfl, rfl⟩, fun _ => rfl, fun _ _ => rfl, rfl,
    ⟨rfl, rfl, rfl, rfl, rfl, rfl⟩, rfl, rfl⟩

@[simp] theorem nextOr_some (s t : State) (k : FailureKind) : s.nextOr k (some t) = .next t := rfl

@[simp] theorem nextOr_none (s : State) (k : FailureKind) : s.nextOr k none = s.raise k := rfl

/-- An operation that may fail answers its state, or the failure. -/
theorem nextOr_cases (s t : State) (k : FailureKind) (o : Option State) (h : s.nextOr k o = .next t) :
    o = some t ∨ (o = none ∧ FailedWith k s t) := by
  cases o with
  | some u =>
    rw [nextOr_some] at h
    exact .inl (congrArg some (Host.Outcome.next.inj h))
  | none =>
    obtain ⟨u, hu, hf⟩ := raise_eq s k
    rw [nextOr_none, hu] at h
    exact .inr ⟨rfl, Host.Outcome.next.inj h ▸ hf⟩

@[simp] theorem skipIf_eq (s : State) (c : Bool) :
    s.skipIf c = .next (if c then s.setPc (s.pc + 2#16) else s) := rfl

theorem keyRead_eq (s : State) (k : Byte) :
    s.keyRead k = if k.toNat > 15 then none else some (s.keys.getLsbD k.toNat) := rfl

/-- A draw delivers a byte and leaves everything but the supply alone (42_alu.md R115). -/
theorem draw_eq (s : State) : ∃ r ds, s.draw = (r, { s with draws := ds, drawn := s.drawn + 1 }) ∧
    (∀ b rest, s.draws = b :: rest → r = b ∧ ds = rest) ∧ (s.draws = [] → r = Config.freeRnd s.drawn ∧ ds = []) := by
  unfold State.draw
  cases h : s.draws with
  | nil => exact ⟨_, _, rfl, by simp, by simp [← h]⟩
  | cons b rest => exact ⟨_, _, rfl, by simp, by simp⟩

/-! #### Flags and arithmetic as numbers (42_alu.md R103, 10_state.md R13) -/

theorem flagByte_decide (p : Prop) [Decidable p] : flagByte (decide p) = if p then 1#8 else 0#8 := by
  by_cases h : p <;> simp [flagByte, h]

theorem toNat_addByte (a b : Byte) : (addByte a b).toNat = (a.toNat + b.toNat) % 256 := by
  simp [addByte]

theorem toNat_subByte (a b : Byte) : ((subByte a b).toNat : Int) = (a.toNat - b.toNat : Int) % 256 := by
  have := a.isLt; have := b.isLt
  simp only [subByte, BitVec.toNat_ofNat]
  omega

theorem toNat_lowBitFlag (a : Byte) : (lowBitFlag a).toNat = a.toNat % 2 := by
  revert a; decide

theorem toNat_highBitFlag (a : Byte) : (highBitFlag a).toNat = a.toNat / 128 := by
  revert a; decide

theorem toNat_addrOperand (nnn : BitVec 12) : (addrOperand nnn).toNat = nnn.toNat := by
  have := nnn.isLt
  simp [addrOperand]
  omega

theorem toNat_byteOperand (b : Byte) : (byteOperand b).toNat = b.toNat := by
  have := b.isLt
  simp [byteOperand]
  omega

theorem toNat_glyphAddr (b : Byte) : (glyphAddr b).toNat = 0x050 + 5 * b.toNat := by
  have := b.isLt
  simp [glyphAddr, Config.fontBase, Config.glyphBytes]
  omega

/-- The smallest pressed key, or none (45_keypad_timers.md R139). -/
theorem lowestKey_eq_some_iff (keys : BitVec 16) (k : Reg) :
    lowestKey keys = some k ↔ keys.getLsbD k.val = true ∧ ∀ j < k.val, keys.getLsbD j = false := by
  unfold lowestKey
  rw [List.find?_eq_some_iff_getElem]
  constructor
  · rintro ⟨h1, i, hi, h2, h3⟩
    simp only [List.length_finRange] at hi
    simp only [List.getElem_finRange, Fin.ext_iff, Fin.val_cast] at h2
    refine ⟨by simpa using h1, fun j hj => ?_⟩
    have := h3 j (by omega)
    simpa using this
  · rintro ⟨h1, h2⟩
    refine ⟨by simpa using h1, k.val, by simp, by simp, fun j hj => ?_⟩
    simpa using h2 j hj

theorem lowestKey_eq_none_iff (keys : BitVec 16) :
    lowestKey keys = none ↔ ∀ k < 16, keys.getLsbD k = false := by
  unfold lowestKey
  rw [List.find?_eq_none]
  constructor
  · intro h k hk
    simpa using h ⟨k, hk⟩ (List.mem_finRange _)
  · intro h k _
    simpa using h k.val k.isLt

end Sys2Proof.Machine
end

