-- ==== Sys2Proof/Laws/PerInstr.lean ====
section
/-! SUPPORT. Sys2Proof/Laws/PerInstr.lean: facts about every instruction as syntax, one lemma per constructor. -/

namespace Sys2Proof.Laws

/-- Family EncodingInRow: the canonical word of an instruction selects the row of 30_encoding.md R72 that the
instruction stands in. -/
def EncodingInRow.Statement (i : Instr) : Prop := (opcodeRow i).selects (encodeWord i) = true

theorem EncodingInRow.cls : EncodingInRow.Statement (.cls) := by
  unfold EncodingInRow.Statement
  decide

theorem EncodingInRow.ret : EncodingInRow.Statement (.ret) := by
  unfold EncodingInRow.Statement
  decide

theorem EncodingInRow.jp (nnn : BitVec 12) : EncodingInRow.Statement (.jp nnn) := by
  simp [EncodingInRow.Statement, OpcodeRow.selects, opcodeRow, encodeWord, and_F000]; decide

theorem EncodingInRow.call (nnn : BitVec 12) : EncodingInRow.Statement (.call nnn) := by
  simp [EncodingInRow.Statement, OpcodeRow.selects, opcodeRow, encodeWord, and_F000]; decide

theorem EncodingInRow.seImm (x : Reg) (kk : Byte) : EncodingInRow.Statement (.seImm x kk) := by
  simp [EncodingInRow.Statement, OpcodeRow.selects, opcodeRow, encodeWord, and_F000]; decide

theorem EncodingInRow.sneImm (x : Reg) (kk : Byte) : EncodingInRow.Statement (.sneImm x kk) := by
  simp [EncodingInRow.Statement, OpcodeRow.selects, opcodeRow, encodeWord, and_F000]; decide

theorem EncodingInRow.seReg (x y : Reg) : EncodingInRow.Statement (.seReg x y) := by
  simp [EncodingInRow.Statement, OpcodeRow.selects, opcodeRow, encodeWord, and_F000]; decide

theorem EncodingInRow.ldImm (x : Reg) (kk : Byte) : EncodingInRow.Statement (.ldImm x kk) := by
  simp [EncodingInRow.Statement, OpcodeRow.selects, opcodeRow, encodeWord, and_F000]; decide

theorem EncodingInRow.addImm (x : Reg) (kk : Byte) : EncodingInRow.Statement (.addImm x kk) := by
  simp [EncodingInRow.Statement, OpcodeRow.selects, opcodeRow, encodeWord, and_F000]; decide

theorem EncodingInRow.ldReg (x y : Reg) : EncodingInRow.Statement (.ldReg x y) := by
  simp [EncodingInRow.Statement, OpcodeRow.selects, opcodeRow, encodeWord, and_F00F]; decide

theorem EncodingInRow.orReg (x y : Reg) : EncodingInRow.Statement (.orReg x y) := by
  simp [EncodingInRow.Statement, OpcodeRow.selects, opcodeRow, encodeWord, and_F00F]; decide

theorem EncodingInRow.andReg (x y : Reg) : EncodingInRow.Statement (.andReg x y) := by
  simp [EncodingInRow.Statement, OpcodeRow.selects, opcodeRow, encodeWord, and_F00F]; decide

theorem EncodingInRow.xorReg (x y : Reg) : EncodingInRow.Statement (.xorReg x y) := by
  simp [EncodingInRow.Statement, OpcodeRow.selects, opcodeRow, encodeWord, and_F00F]; decide

theorem EncodingInRow.addReg (x y : Reg) : EncodingInRow.Statement (.addReg x y) := by
  simp [EncodingInRow.Statement, OpcodeRow.selects, opcodeRow, encodeWord, and_F00F]; decide

theorem EncodingInRow.subReg (x y : Reg) : EncodingInRow.Statement (.subReg x y) := by
  simp [EncodingInRow.Statement, OpcodeRow.selects, opcodeRow, encodeWord, and_F00F]; decide

theorem EncodingInRow.shr (x : Reg) : EncodingInRow.Statement (.shr x) := by
  simp [EncodingInRow.Statement, OpcodeRow.selects, opcodeRow, encodeWord, and_F00F]; decide

theorem EncodingInRow.subnReg (x y : Reg) : EncodingInRow.Statement (.subnReg x y) := by
  simp [EncodingInRow.Statement, OpcodeRow.selects, opcodeRow, encodeWord, and_F00F]; decide

theorem EncodingInRow.shl (x : Reg) : EncodingInRow.Statement (.shl x) := by
  simp [EncodingInRow.Statement, OpcodeRow.selects, opcodeRow, encodeWord, and_F00F]; decide

theorem EncodingInRow.sneReg (x y : Reg) : EncodingInRow.Statement (.sneReg x y) := by
  simp [EncodingInRow.Statement, OpcodeRow.selects, opcodeRow, encodeWord, and_F000]; decide

theorem EncodingInRow.ldI (nnn : BitVec 12) : EncodingInRow.Statement (.ldI nnn) := by
  simp [EncodingInRow.Statement, OpcodeRow.selects, opcodeRow, encodeWord, and_F000]; decide

theorem EncodingInRow.jpV0 (nnn : BitVec 12) : EncodingInRow.Statement (.jpV0 nnn) := by
  simp [EncodingInRow.Statement, OpcodeRow.selects, opcodeRow, encodeWord, and_F000]; decide

theorem EncodingInRow.rnd (x : Reg) (kk : Byte) : EncodingInRow.Statement (.rnd x kk) := by
  simp [EncodingInRow.Statement, OpcodeRow.selects, opcodeRow, encodeWord, and_F000]; decide

theorem EncodingInRow.drw (x y : Reg) (n : Nat) : EncodingInRow.Statement (.drw x y n) := by
  simp [EncodingInRow.Statement, OpcodeRow.selects, opcodeRow, encodeWord, and_F000]; decide

theorem EncodingInRow.skp (x : Reg) : EncodingInRow.Statement (.skp x) := by
  simp [EncodingInRow.Statement, OpcodeRow.selects, opcodeRow, encodeWord, and_F0FF]; decide

theorem EncodingInRow.sknp (x : Reg) : EncodingInRow.Statement (.sknp x) := by
  simp [EncodingInRow.Statement, OpcodeRow.selects, opcodeRow, encodeWord, and_F0FF]; decide

theorem EncodingInRow.ldVxDt (x : Reg) : EncodingInRow.Statement (.ldVxDt x) := by
  simp [EncodingInRow.Statement, OpcodeRow.selects, opcodeRow, encodeWord, and_F0FF]; decide

theorem EncodingInRow.ldVxK (x : Reg) : EncodingInRow.Statement (.ldVxK x) := by
  simp [EncodingInRow.Statement, OpcodeRow.selects, opcodeRow, encodeWord, and_F0FF]; decide

theorem EncodingInRow.ldDtVx (x : Reg) : EncodingInRow.Statement (.ldDtVx x) := by
  simp [EncodingInRow.Statement, OpcodeRow.selects, opcodeRow, encodeWord, and_F0FF]; decide

theorem EncodingInRow.ldStVx (x : Reg) : EncodingInRow.Statement (.ldStVx x) := by
  simp [EncodingInRow.Statement, OpcodeRow.selects, opcodeRow, encodeWord, and_F0FF]; decide

theorem EncodingInRow.addI (x : Reg) : EncodingInRow.Statement (.addI x) := by
  simp [EncodingInRow.Statement, OpcodeRow.selects, opcodeRow, encodeWord, and_F0FF]; decide

theorem EncodingInRow.ldF (x : Reg) : EncodingInRow.Statement (.ldF x) := by
  simp [EncodingInRow.Statement, OpcodeRow.selects, opcodeRow, encodeWord, and_F0FF]; decide

theorem EncodingInRow.ldB (x : Reg) : EncodingInRow.Statement (.ldB x) := by
  simp [EncodingInRow.Statement, OpcodeRow.selects, opcodeRow, encodeWord, and_F0FF]; decide

theorem EncodingInRow.storeRegs (x : Reg) : EncodingInRow.Statement (.storeRegs x) := by
  simp [EncodingInRow.Statement, OpcodeRow.selects, opcodeRow, encodeWord, and_F0FF]; decide

theorem EncodingInRow.loadRegs (x : Reg) : EncodingInRow.Statement (.loadRegs x) := by
  simp [EncodingInRow.Statement, OpcodeRow.selects, opcodeRow, encodeWord, and_F0FF]; decide

end Sys2Proof.Laws
end

