-- ==== Sys2Proof/Laws/Step.lean ====
section
/-! SUPPORT. Sys2Proof/Laws/Step.lean: everything a step can do, said once (40_cycle.md R80 to R91). -/

namespace Sys2Proof.Machine

/-- Fetch reads the two bytes at pc, or fails (R82). -/
theorem fetchWord_eq (s : State) : s.fetchWord = if s.pc.toNat ≤ 0xFFE then
    some (wordOfBytes (s.readByte s.pc.toNat) (s.readByte (s.pc.toNat + 1))) else none := by
  unfold State.fetchWord
  rw [memRead_eq]
  have h : (2 = 0 ∨ s.pc.toNat + 2 - 1 ≤ 4095) ↔ s.pc.toNat ≤ 0xFFE := by omega
  simp only [h]
  split <;> rename_i h1
  · split at h1 <;> rename_i h2
    · simp [List.range_succ] at h1
      simp [h2, ← h1.1, ← h1.2]
    · cases h1
  · split at h1 <;> rename_i h2
    · simp [List.range_succ] at h1
    · simp [h2]

/-- Where a pass is next, the step is the core's pass. -/
theorem step_of_coreIsNext (s : State) (h : s.CoreIsNext) : step s = corePass s.atPass := by
  unfold step cycleStep
  rw [h]
  rfl

/-- A RUNNING pass whose word decodes is `exec` with the commit rule around it (R83, R91). -/
theorem step_of_fetches (s : State) (w : Word) (h : s.Fetches w) :
    step s = match decodeWord w with
      | .error _ => .next (s.atPass.halt .decodeFailure (some w))
      | .ok i => settle s.atPass (exec i (s.atPass.fetched w)) := by
  obtain ⟨hc, hm, hq, hp, hw⟩ := h
  rw [step_of_coreIsNext s hc, corePass]
  have h1 : s.atPass.mode = .running := hm
  have h2 : s.atPass.quit = false := hq
  simp only [h1, h2, Bool.false_eq_true, if_false, runningPass, fetchWord_eq]
  have h3 : s.atPass.pc.toNat ≤ 0xFFE := hp
  rw [if_pos h3]
  have h4 : wordOfBytes (s.atPass.readByte s.atPass.pc.toNat) (s.atPass.readByte (s.atPass.pc.toNat + 1)) = w :=
    hw.symm
  exact congrArg (fun x => match decodeWord x with
    | .error _ => (.next (s.atPass.halt .decodeFailure (some x)) : Result)
    | .ok i => settle s.atPass (exec i (s.atPass.fetched x))) h4

/-- Everything a step that answers a next state can do. -/
theorem step_next_cases {s t : State} (h : step s = .next t) :
    (s.CoreIsNext ∧ s.mode = .running ∧ s.quit = false ∧ s.pc.toNat > 0xFFE ∧
      t = s.atPass.halt .addressOutOfRange none) ∨
    (∃ w, s.Fetches w ∧ (∀ i, decodeWord w ≠ .ok i) ∧ t = s.atPass.halt .decodeFailure (some w)) ∨
    (∃ w i u, s.Fetches w ∧ decodeWord w = .ok i ∧ exec i (s.atPass.fetched w) = .next u ∧
      t = if u.mode = .halted then { s.atPass with mode := u.mode, fault := u.fault } else u) ∨
    (s.CoreIsNext ∧ s.mode = .awaitKey ∧ s.quit = false ∧ t = keyWaitPass s.atPass) ∨
    (s.nextEvent = .tick ∧ t = tick s.atPass) ∨
    (∃ k, s.nextEvent = .setKeys k ∧ t = { s.atPass with keys := k }) ∨
    (s.nextEvent = .setQuit ∧ t = { s.atPass with quit := true }) ∨
    (∃ rom, s.nextEvent = .boot rom ∧ t = s.atPass.boot rom) := by
  have core (hc : s.CoreIsNext) :
      (s.CoreIsNext ∧ s.mode = .running ∧ s.quit = false ∧ s.pc.toNat > 0xFFE ∧
        t = s.atPass.halt .addressOutOfRange none) ∨
      (∃ w, s.Fetches w ∧ (∀ i, decodeWord w ≠ .ok i) ∧ t = s.atPass.halt .decodeFailure (some w)) ∨
      (∃ w i u, s.Fetches w ∧ decodeWord w = .ok i ∧ exec i (s.atPass.fetched w) = .next u ∧
        t = if u.mode = .halted then { s.atPass with mode := u.mode, fault := u.fault } else u) ∨
      (s.CoreIsNext ∧ s.mode = .awaitKey ∧ s.quit = false ∧ t = keyWaitPass s.atPass) := by
    have h0 := h
    rw [step_of_coreIsNext s hc, corePass] at h
    simp only [State.atPass_mode, State.atPass_quit] at h
    cases hm : s.mode with
    | halted => rw [hm] at h; cases h
    | awaitKey =>
      cases hq : s.quit with
      | true => simp [hm, hq] at h
      | false =>
        simp [hm, hq] at h
        exact .inr (.inr (.inr ⟨hc, rfl, rfl, h.symm⟩))
    | running =>
      cases hq : s.quit with
      | true => simp [hm, hq] at h
      | false =>
        by_cases hp : s.pc.toNat ≤ 0xFFE
        · have hf : s.Fetches _ := ⟨hc, hm, hq, hp, rfl⟩
          rw [step_of_fetches s _ hf] at h0
          cases hd : decodeWord (wordOfBytes (s.readByte s.pc.toNat) (s.readByte (s.pc.toNat + 1))) with
          | error r =>
            simp [hd] at h0
            exact .inr (.inl ⟨_, hf, by simp [hd], h0.symm⟩)
          | ok i =>
            simp only [hd] at h0
            unfold settle at h0
            split at h0 <;> rename_i u hu
            · refine .inr (.inr (.inl ⟨_, i, u, hf, hd, hu, ?_⟩))
              split at h0 <;> rename_i hh <;> simpa [hh] using h0.symm
            · cases h0
            · cases h0
        · have hp' : ¬ s.atPass.pc.toNat ≤ 0xFFE := hp
          simp only [hm, hq, Bool.false_eq_true, if_false, runningPass, fetchWord_eq, hp'] at h
          exact .inl ⟨hc, rfl, rfl, by omega, (Host.Outcome.next.inj h).symm⟩
  have hact : act s.nextEvent s.atPass = .next t := h
  cases he : s.nextEvent with
  | pass =>
    rcases core he with h | h | h | h
    exacts [.inl h, .inr (.inl h), .inr (.inr (.inl h)), .inr (.inr (.inr (.inl h)))]
  | tick => rw [he] at hact; exact .inr (.inr (.inr (.inr (.inl ⟨rfl, (Host.Outcome.next.inj hact).symm⟩))))
  | setKeys k =>
    rw [he] at hact
    exact .inr (.inr (.inr (.inr (.inr (.inl ⟨k, rfl, (Host.Outcome.next.inj hact).symm⟩)))))
  | setQuit =>
    rw [he] at hact
    exact .inr (.inr (.inr (.inr (.inr (.inr (.inl ⟨rfl, (Host.Outcome.next.inj hact).symm⟩))))))
  | boot rom =>
    rw [he] at hact
    exact .inr (.inr (.inr (.inr (.inr (.inr (.inr ⟨rom, rfl, (Host.Outcome.next.inj hact).symm⟩))))))

end Sys2Proof.Machine
end

