-- ==== Sys2Proof/Laws/Schedule.lean ====
section
/-! SUPPORT. Sys2Proof/Laws/Schedule.lean: a schedule as an endless sequence of events, read off the agenda and what
comes later. -/

namespace Sys2Proof.Machine

/-! #### The next event and the schedule after it, one lemma per form -/

theorem nextEvent_cons {s : State} {e : Event} {es : List Event} (h : s.agenda = e :: es) : s.nextEvent = e := by
  simp [State.nextEvent, h]

theorem nextEvent_nil {s : State} (h : s.agenda = []) : s.nextEvent = s.later.first := by
  simp [State.nextEvent, h]

theorem scheduleRest_cons {s : State} {e : Event} {es : List Event} (h : s.agenda = e :: es) :
    s.scheduleRest = (es, s.later) := by
  simp [State.scheduleRest, h]

theorem scheduleRest_passes {s : State} (h : s.agenda = []) (hl : s.later = .repeating []) :
    s.scheduleRest = ([], .repeating []) := by
  simp [State.scheduleRest, h, hl]

theorem scheduleRest_repeating {s : State} {e : Event} {es : List Event} (h : s.agenda = [])
    (hl : s.later = .repeating (e :: es)) : s.scheduleRest = (es, .repeating (e :: es)) := by
  simp [State.scheduleRest, h, hl]

theorem scheduleRest_free {s : State} {n : Nat} (h : s.agenda = []) (hl : s.later = .free n) :
    s.scheduleRest = ([], .free (n + 1)) := by
  simp [State.scheduleRest, h, hl]

/-- The schedule is read off these two fields alone. -/
theorem scheduleRest_congr {s t : State} (ha : s.agenda = t.agenda) (hl : s.later = t.later) :
    s.scheduleRest = t.scheduleRest := by
  simp [State.scheduleRest, ha, hl]

theorem nextEvent_congr {s t : State} (ha : s.agenda = t.agenda) (hl : s.later = t.later) :
    s.nextEvent = t.nextEvent := by
  simp [State.nextEvent, ha, hl]

/-! #### Passing over events -/

@[simp] theorem pastEvents_zero (s : State) : s.pastEvents 0 = s := rfl

theorem pastEvents_succ (s : State) (k : Nat) : s.pastEvents (k + 1) = (s.pastEvents k).atPass := rfl

theorem pastEvents_succ' (s : State) (k : Nat) : s.pastEvents (k + 1) = s.atPass.pastEvents k := by
  induction k with
  | zero => rfl
  | succ k ih => rw [pastEvents_succ, ih, pastEvents_succ]

@[simp] theorem eventAt_zero (s : State) : s.eventAt 0 = s.nextEvent := rfl

theorem eventAt_succ (s : State) (k : Nat) : s.eventAt (k + 1) = s.atPass.eventAt k := by
  rw [State.eventAt, pastEvents_succ', State.eventAt]

/-- Passing over events changes the schedule alone. -/
theorem pastEvents_eq (s : State) (k : Nat) :
    s.pastEvents k = { s with agenda := (s.pastEvents k).agenda, later := (s.pastEvents k).later } := by
  induction k with
  | zero => rfl
  | succ k ih =>
    rw [pastEvents_succ]
    conv => lhs; rw [ih]
    rfl

/-- States with one schedule keep one schedule when events are passed over. -/
theorem pastEvents_congr {s t : State} (ha : s.agenda = t.agenda) (hl : s.later = t.later) (k : Nat) :
    (s.pastEvents k).agenda = (t.pastEvents k).agenda ∧ (s.pastEvents k).later = (t.pastEvents k).later := by
  induction k with
  | zero => exact ⟨ha, hl⟩
  | succ k ih =>
    have h := scheduleRest_congr ih.1 ih.2
    exact ⟨congrArg Prod.fst h, congrArg Prod.snd h⟩

theorem eventAt_congr {s t : State} (ha : s.agenda = t.agenda) (hl : s.later = t.later) (k : Nat) :
    s.eventAt k = t.eventAt k :=
  nextEvent_congr (pastEvents_congr ha hl k).1 (pastEvents_congr ha hl k).2

/-! #### A boot leaves the schedule alone -/

theorem boot_schedule (s : State) (rom : List Byte) : (s.boot rom).agenda = s.agenda ∧ (s.boot rom).later = s.later := by
  unfold State.boot State.loadProgram
  split <;> exact ⟨rfl, rfl⟩

/-! #### Runs of several steps -/

/-- A run begins with a step. -/
theorem run_succ_iff (k : Nat) (s t : State) :
    core.run (k + 1) s = .next t ↔ ∃ u, step s = .next u ∧ core.run k u = .next t := by
  cases h : step s with
  | _ r =>
    have hc : Host.Core.step core s = _ := h
    simp [Host.Core.run, hc]

/-- A run of `k + m` steps is a run of `k` and then one of `m`. -/
theorem run_add_iff (k m : Nat) (s t : State) :
    core.run (k + m) s = .next t ↔ ∃ u : State, core.run k s = .next u ∧ core.run m u = .next t := by
  induction k generalizing s with
  | zero =>
    rw [Nat.zero_add]
    exact ⟨fun h => ⟨s, rfl, h⟩, fun ⟨u, h1, h2⟩ => Host.Outcome.next.inj h1 ▸ h2⟩
  | succ k ih =>
    rw [show k + 1 + m = (k + m) + 1 by omega, run_succ_iff]
    simp only [ih, run_succ_iff]
    exact ⟨fun ⟨u, h1, v, h2, h3⟩ => ⟨v, ⟨u, h1, h2⟩, h3⟩, fun ⟨v, ⟨u, h1, h2⟩, h3⟩ => ⟨u, h1, v, h2, h3⟩⟩

end Sys2Proof.Machine
end

