-- ==== Sys2Proof/Tests/Slice0.lean ====
section
/-! SUPPORT. Sys2Proof/Tests/Slice0.lean: the model's own tests. Expected values are the spec's: worked examples and
vectors of 95_test_vectors.md (named S, V-DEC, V-CTL, V-ALU, V-MEM, V-DRW, V-KEY, V-RST there), words written out from
30_encoding.md R72. -/

namespace Sys2Proof.Tests

open Sys2Proof Sys2Proof.Machine

/-! ### WellFormed: the one check refuses an ill-formed term -/

theorem test_wellFormed_refuses_sixteen_rows : (Instr.drw 0 1 16).wellFormed = false := by decide
theorem test_wellFormed_admits_fifteen_rows : (Instr.drw 15 15 15).wellFormed = true := by decide

/-! ### Decode: one word per row of R72, and the words of V-DEC -/

def decodesTo (w : Word) (i : Instr) : Bool := decodeWord w == .ok i
def illegal (w : Word) : Bool := match decodeWord w with
  | .ok _ => false
  | .error _ => true

theorem test_decode_fixed : decodesTo 0x00E0 .cls && decodesTo 0x00EE .ret = true := by decide
theorem test_decode_nnn : decodesTo 0x1234 (.jp 0x234) && decodesTo 0x2300 (.call 0x300) &&
    decodesTo 0xA250 (.ldI 0x250) && decodesTo 0xBFFF (.jpV0 0xFFF) = true := by decide
theorem test_decode_xkk : decodesTo 0x3100 (.seImm 1 0) && decodesTo 0x4311 (.sneImm 3 0x11) &&
    decodesTo 0x6005 (.ldImm 0 5) && decodesTo 0x71FF (.addImm 1 0xFF) && decodesTo 0xCF00 (.rnd 15 0) = true := by
  decide
theorem test_decode_xy : decodesTo 0x5AB0 (.seReg 0xA 0xB) && decodesTo 0x9AB3 (.sneReg 0xA 0xB) &&
    decodesTo 0x8AB0 (.ldReg 0xA 0xB) && decodesTo 0x8011 (.orReg 0 1) && decodesTo 0x8012 (.andReg 0 1) &&
    decodesTo 0x8013 (.xorReg 0 1) = true := by decide
theorem test_decode_xy_flags : decodesTo 0x8014 (.addReg 0 1) && decodesTo 0x8015 (.subReg 0 1) &&
    decodesTo 0x8126 (.shr 1) && decodesTo 0x8017 (.subnReg 0 1) && decodesTo 0x8ABE (.shl 0xA) = true := by decide
theorem test_decode_xyn : decodesTo 0xD125 (.drw 1 2 5) && decodesTo 0xD015 (.drw 0 1 5) = true := by decide
theorem test_decode_keys : decodesTo 0xE19E (.skp 1) && decodesTo 0xE1A1 (.sknp 1) = true := by decide
theorem test_decode_familyF_timers : decodesTo 0xF007 (.ldVxDt 0) && decodesTo 0xF10A (.ldVxK 1) &&
    decodesTo 0xF215 (.ldDtVx 2) && decodesTo 0xF318 (.ldStVx 3) = true := by decide
theorem test_decode_familyF_memory : decodesTo 0xF41E (.addI 4) && decodesTo 0xF529 (.ldF 5) &&
    decodesTo 0xF633 (.ldB 6) && decodesTo 0xF755 (.storeRegs 7) && decodesTo 0xF865 (.loadRegs 8) = true := by decide
theorem test_decode_illegal : ([0x0000, 0x00E1, 0x00EF, 0x01E0, 0x0FFF, 0x8008, 0x800F, 0xE09F, 0xE0A0, 0xE000,
    0xF000, 0xF166, 0xF075, 0xF01F, 0xFFFF] : List Word).all illegal = true := by decide
theorem test_decode_bytes_bigEndian : decode [0x12, 0x34, 0x99] = .ok (.jp 0x234, [0x99]) := by decide
theorem test_encode_canonical : encode (.seReg 0xA 0xB) = [0x5A, 0xB0] ∧ encode (.shr 1) = [0x81, 0x06] ∧
    encode (.drw 1 2 5) = [0xD1, 0x25] := by decide
theorem test_decodeTableWord : decodeTableWord 16 0xF755 = some (.storeRegs 7) ∧ decodeTableWord 16 0x8008 = none := by
  decide

/-! ### One step each: a word placed at pc, and some fields of the state after -/

/-- The reset state with some registers set. -/
def withRegs (l : List (Reg × Byte)) : State := l.foldl (fun s p => s.setReg p.1 p.2) State.reset

/-- Run the word placed at pc for one step and look at the state after. -/
def runs (s : State) (w : Nat) (p : State → Bool) : Bool :=
  match step (s.withFetchWord 16 w) with
  | .next t => p t
  | .fault _ => false
  | .refused _ => false

/-- The failure of V-rows: HALTED, FAULT as given, pc back at the instruction. -/
def failed (k : FailureKind) (w a : Word) (t : State) : Bool :=
  t.mode == .halted && t.fault == some ⟨k, some w, some a⟩ && t.pc == a

/-- V-RST 4: the empty program halts on the zero word at 0x200. -/
theorem test_step_from_reset : (match step State.reset with
    | .next t => failed .decodeFailure 0x0000 0x0200 t && t.ir == State.reset.ir
    | _ => false) = true := by decide
/-- V-CTL 24: fetch at 0xFFF fails with the word absent. -/
theorem test_fetch_past_end : (match step (State.reset.setPc 0x0FFF) with
    | .next t => t.mode == .halted && t.fault == some ⟨.addressOutOfRange, none, some 0x0FFF⟩ && t.pc == 0x0FFF
    | _ => false) = true := by decide
/-- R85: no pass in HALTED. -/
theorem test_halted_has_no_pass : (match step { State.reset with mode := .halted } with
    | .fault .halted => true
    | _ => false) = true := by decide
/-- R88: no pass after quit. -/
theorem test_quit_has_no_pass : (match step { State.reset with quit := true } with
    | .fault .quit => true
    | _ => false) = true := by decide

/-- S8, V-DRW 13 -/
theorem test_cls : runs { withRegs [(15, 0x55)] with fb := Framebuffer.flip blankFramebuffer 3 3 } 0x00E0
    (fun t => !t.readOut 3 3 && !t.readOut 63 31 && t.reg 15 == 0x55 && t.pc == 0x0202) = true := by decide
/-- V-CTL 7 -/
theorem test_ret : runs { State.reset with sp := 2, stk := (State.reset.stk.set 0 0x0210).set 1 0x0345 } 0x00EE
    (fun t => t.sp == 1 && t.pc == 0x0345 && t.stk[1] == 0x0345) = true := by decide
/-- V-CTL 6 -/
theorem test_ret_underflow : runs State.reset 0x00EE (failed .stackUnderflow 0x00EE 0x0200) = true := by decide
/-- V-CTL 3: an odd target is legal -/
theorem test_jp : runs State.reset 0x1203 (fun t => t.pc == 0x0203 && t.mode == .running) = true := by decide
/-- V-CTL 4 -/
theorem test_call : runs { State.reset with sp := 15 } 0x2300
    (fun t => t.stk[15] == 0x0202 && t.sp == 16 && t.pc == 0x0300) = true := by decide
/-- V-CTL 5 -/
theorem test_call_overflow : runs { State.reset with sp := 16 } 0x2300
    (fun t => failed .stackOverflow 0x2300 0x0200 t && t.sp == 16) = true := by decide
/-- V-CTL 9, 10 -/
theorem test_seImm : runs (withRegs [(1, 0)]) 0x3100 (fun t => t.pc == 0x0204) &&
    runs (withRegs [(1, 1)]) 0x3100 (fun t => t.pc == 0x0202) = true := by decide
/-- V-CTL 11, 12 -/
theorem test_sneImm : runs (withRegs [(3, 0x10)]) 0x4311 (fun t => t.pc == 0x0204) &&
    runs (withRegs [(3, 0x11)]) 0x4311 (fun t => t.pc == 0x0202) = true := by decide
/-- V-CTL 13, 14: the low nibble is ignored -/
theorem test_seReg : runs (withRegs [(0, 0x7F), (1, 0x7F)]) 0x5010 (fun t => t.pc == 0x0204) &&
    runs (withRegs [(0, 0x7F), (1, 0x80)]) 0x5017 (fun t => t.pc == 0x0202) = true := by decide
/-- V-CTL 16, 17 -/
theorem test_sneReg : runs (withRegs [(0, 1), (1, 2)]) 0x9010 (fun t => t.pc == 0x0204) &&
    runs (withRegs [(4, 9)]) 0x9440 (fun t => t.pc == 0x0202) = true := by decide
/-- V-CTL 18, 19 -/
theorem test_jpV0 : runs (withRegs [(0, 4)]) 0xB300 (fun t => t.pc == 0x0304) &&
    runs (withRegs [(0, 0xFF)]) 0xBFFF (fun t => t.pc == 0x10FE) = true := by decide

/-- V-ALU 1, 2 -/
theorem test_ldImm : runs (withRegs [(15, 0x55)]) 0x6AFF (fun t => t.reg 10 == 0xFF && t.reg 15 == 0x55) &&
    runs (withRegs [(15, 0x55)]) 0x6F07 (fun t => t.reg 15 == 0x07) = true := by decide
/-- V-ALU 3, 4 -/
theorem test_addImm : runs (withRegs [(1, 5), (15, 0x55)]) 0x71FF (fun t => t.reg 1 == 4 && t.reg 15 == 0x55) &&
    runs (withRegs [(2, 0xFF), (15, 0x55)]) 0x7202 (fun t => t.reg 2 == 1 && t.reg 15 == 0x55) = true := by decide
/-- V-ALU 10 -/
theorem test_ldReg : runs (withRegs [(15, 1)]) 0x8EF0 (fun t => t.reg 14 == 1) = true := by decide
/-- V-ALU 6 -/
theorem test_orReg : runs (withRegs [(0, 0xF0), (1, 0x0F), (15, 0x55)]) 0x8011
    (fun t => t.reg 0 == 0xFF && t.reg 15 == 0x55) = true := by decide
/-- V-ALU 7 -/
theorem test_andReg : runs (withRegs [(0, 0xF0), (1, 0x3C), (15, 0x55)]) 0x8012
    (fun t => t.reg 0 == 0x30 && t.reg 15 == 0x55) = true := by decide
/-- V-ALU 8 -/
theorem test_xorReg : runs (withRegs [(0, 0xFF), (1, 0x0F), (15, 0x55)]) 0x8013
    (fun t => t.reg 0 == 0xF0 && t.reg 15 == 0x55) = true := by decide
/-- S1; V-ALU 15 -/
theorem test_addReg : runs (withRegs [(0, 0xFF), (1, 1)]) 0x8014 (fun t => t.reg 0 == 0 && t.reg 15 == 1) &&
    runs (withRegs [(15, 0xFF), (1, 1)]) 0x8F14 (fun t => t.reg 15 == 0) = true := by decide
/-- V-ALU 21: the old VF is the operand -/
theorem test_addReg_VF_operand : runs (withRegs [(0, 0x10), (15, 1)]) 0x80F4
    (fun t => t.reg 0 == 0x11 && t.reg 15 == 0) = true := by decide
/-- S2; the row of equal operands -/
theorem test_subReg : runs (withRegs [(0, 5), (1, 0x0A)]) 0x8015 (fun t => t.reg 0 == 0xFB && t.reg 15 == 0) &&
    runs (withRegs [(0, 7), (1, 7)]) 0x8015 (fun t => t.reg 0 == 0 && t.reg 15 == 0) = true := by decide
/-- S3; V-ALU 18 -/
theorem test_shr : runs (withRegs [(0, 0x81)]) 0x8006 (fun t => t.reg 0 == 0x40 && t.reg 15 == 1) &&
    runs (withRegs [(15, 3)]) 0x8F06 (fun t => t.reg 15 == 1) = true := by decide
/-- V-ALU table and 17 -/
theorem test_subnReg : runs (withRegs [(0, 5), (1, 0x0A)]) 0x8017 (fun t => t.reg 0 == 5 && t.reg 15 == 1) &&
    runs (withRegs [(15, 3), (1, 2)]) 0x8F17 (fun t => t.reg 15 == 0xFF) = true := by decide
/-- S4; y is ignored -/
theorem test_shl : runs (withRegs [(0, 0x81), (1, 0x33)]) 0x801E
    (fun t => t.reg 0 == 2 && t.reg 1 == 0x33 && t.reg 15 == 1) = true := by decide
/-- V-ALU 11: the draw is the supplied byte -/
theorem test_rnd : runs { State.reset with draws := [0xA7, 0x5C] } 0xC00F
    (fun t => t.reg 0 == 0x07 && t.draws == [0x5C]) = true := by decide
/-- The draw is taken also under the mask 0. -/
theorem test_rnd_advances : runs State.reset 0xC000 (fun t => t.drawn == 1 && t.pc == 0x0202) = true := by decide

/-- V-MEM 1 -/
theorem test_ldI : runs State.reset 0xA050 (fun t => t.idx == 0x0050) = true := by decide
/-- V-MEM 3, 5 -/
theorem test_addI : runs ((withRegs [(0, 1)]).setIdx 0x0FFF) 0xF01E (fun t => t.idx == 0x1000) &&
    runs ((withRegs [(0, 0xFE)]).setIdx 0xFF01) 0xF01E (fun t => t.idx == 0xFFFF) = true := by decide
/-- V-MEM 6 -/
theorem test_addI_overflow : runs ((withRegs [(0, 1)]).setIdx 0xFFFF) 0xF01E
    (fun t => failed .addressOutOfRange 0xF01E 0x0200 t && t.idx == 0xFFFF) = true := by decide
/-- V-MEM 8, 10 -/
theorem test_ldF : runs (withRegs [(0, 0x0F)]) 0xF029 (fun t => t.idx == 0x009B) &&
    runs (withRegs [(3, 0xFF)]) 0xF329 (fun t => t.idx == 0x054B) = true := by decide
/-- S6 -/
theorem test_ldB : runs ((withRegs [(0, 0xEA)]).setIdx 0x0300) 0xF033 (fun t =>
    t.readByte 0x300 == 2 && t.readByte 0x301 == 3 && t.readByte 0x302 == 4 && t.idx == 0x0300) = true := by decide
/-- V-MEM 13 -/
theorem test_ldB_out_of_range : runs ((withRegs [(0, 0xEA)]).setIdx 0x0FFE) 0xF033
    (fun t => failed .addressOutOfRange 0xF033 0x0200 t && t.readByte 0xFFE == 0) = true := by decide
/-- V-MEM 16 -/
theorem test_storeRegs : runs ((withRegs [(0, 0xAA), (1, 0xBB), (2, 0xCC)]).setIdx 0x0300) 0xF155
    (fun t => t.readByte 0x300 == 0xAA && t.readByte 0x301 == 0xBB && t.readByte 0x302 == 0) = true := by decide
/-- V-MEM 15 -/
theorem test_storeRegs_out_of_range : runs ((withRegs [(0, 0xA0)]).setIdx 0x0FF1) 0xFF55
    (fun t => failed .addressOutOfRange 0xFF55 0x0200 t && t.readByte 0xFF1 == 0) = true := by decide
/-- V-MEM 18: reads the default font -/
theorem test_loadRegs : runs (State.reset.setIdx 0x0050) 0xFF65 (fun t => t.v.toList ==
    [0xF0, 0x90, 0x90, 0x90, 0xF0, 0x20, 0x60, 0x20, 0x20, 0x70, 0xF0, 0x10, 0xF0, 0x80, 0xF0, 0xF0]) = true := by
  decide
/-- V-MEM 19 -/
theorem test_loadRegs_out_of_range : runs (State.reset.setIdx 0x1000) 0xF065
    (failed .addressOutOfRange 0xF065 0x0200) = true := by decide

/-- Of the pixels listed, exactly those in `on` are on. -/
def pixelsOn (s : State) (on off : List (Fin 64 × Fin 32)) : Bool :=
  on.all (fun p => s.readOut p.1 p.2) && off.all (fun p => !s.readOut p.1 p.2)

/-- V-DRW 3 with the font byte F0 at 0x050 as the sprite: row 0 wraps at the right edge. -/
theorem test_drw_wraps : runs ((withRegs [(0, 62)]).setIdx 0x0050) 0xD011 (fun t =>
    pixelsOn t [(62, 0), (63, 0), (0, 0), (1, 0)] [(61, 0), (2, 0), (62, 1), (0, 31)] && t.reg 15 == 0) = true := by
  decide
/-- V-DRW 8 with the font byte 80 at 0x09E as the sprite: the old VF is the column. -/
theorem test_drw_VF_operand : runs ((withRegs [(15, 5), (1, 2)]).setIdx 0x009E) 0xDF11 (fun t =>
    pixelsOn t [(5, 2)] [(6, 2), (4, 2), (5, 1), (5, 3), (2, 5), (12, 2)] && t.reg 15 == 0) = true := by decide
/-- V-DRW 6 -/
theorem test_drw_out_of_range : runs ((withRegs [(15, 7)]).setIdx 0x0FFE) 0xD013 (fun t =>
    failed .addressOutOfRange 0xD013 0x0200 t && t.reg 15 == 7) = true := by decide

/-- V-KEY 1, 2 -/
theorem test_skp : runs { withRegs [(2, 5)] with keys := 0x0020 } 0xE29E (fun t => t.pc == 0x0204) &&
    runs (withRegs [(2, 5)]) 0xE29E (fun t => t.pc == 0x0202) = true := by decide
/-- V-KEY 5 -/
theorem test_skp_out_of_range : runs (withRegs [(2, 0x10)]) 0xE29E
    (failed .keyIndexOutOfRange 0xE29E 0x0200) = true := by decide
/-- V-KEY 3, 4 -/
theorem test_sknp : runs (withRegs [(2, 5)]) 0xE2A1 (fun t => t.pc == 0x0204) &&
    runs { withRegs [(2, 5)] with keys := 0x0020 } 0xE2A1 (fun t => t.pc == 0x0202) = true := by decide
/-- V-KEY 7 -/
theorem test_ldVxK : runs State.reset 0xF30A
    (fun t => t.mode == .awaitKey && t.kreg == 3 && t.pc == 0x0202 && t.reg 3 == 0) = true := by decide
/-- V-KEY 10: the smallest pressed key -/
theorem test_keyWait_smallest : (match step { State.reset with mode := .awaitKey, kreg := 3, keys := 0x0208 } with
    | .next t => t.reg 3 == 3 && t.mode == .running && t.pc == 0x0200
    | _ => false) = true := by decide
/-- V-KEY 14 -/
theorem test_ldVxDt : runs (State.reset.setDt 0x2A) 0xF107 (fun t => t.reg 1 == 0x2A && t.dt == 0x2A) = true := by
  decide
/-- V-KEY 15 -/
theorem test_ldDtVx : runs (withRegs [(0, 0x3C)]) 0xF015 (fun t => t.dt == 0x3C) = true := by decide
/-- V-KEY 16 -/
theorem test_ldStVx : runs (withRegs [(4, 5)]) 0xF418 (fun t => t.st == 5) = true := by decide
/-- V-KEY 17, 18, 20 -/
theorem test_tick : (tick { State.reset with dt := 3 }).dt = 2 ∧ (tick State.reset).dt = 0 ∧
    (tick { State.reset with dt := 9, mode := .halted }).dt = 9 := by decide

/-- 60_exceptions.md R159, R161: a schedule of one tick and one pass for ever. -/
theorem test_repeating_schedule : (match step { State.reset with dt := 3, later := .repeating [.tick, .pass] } with
    | .next t => t.dt == 2 && t.agenda == [.pass] && t.later == .repeating [.tick, .pass]
    | _ => false) = true := by decide

/-- V-RST 5: an odd length; the first fetch reads 12 00. -/
theorem test_boot : (match step (State.reset.boot [0x12]) with
    | .next t => t.pc == 0x0200 && t.mode == .running
    | _ => false) = true := by decide
/-- V-RST 6 -/
theorem test_reset_font : State.reset.readByte 0x050 = 0xF0 ∧ State.reset.readByte 0x055 = 0x20 ∧
    State.reset.readByte 0x09B = 0xF0 ∧ State.reset.readByte 0x09F = 0x80 ∧ State.reset.readByte 0x0A0 = 0x00 := by
  decide

/-! ### Witnesses: for every statement of Certificates/Slice0/Obligations.lean with hypotheses, states and operands
that meet them together, one for each clause, at the ends of ranges -/

/-- The reset state with a word placed where the next step fetches. -/
def placed (w : Nat) : State := State.reset.withFetchWord 16 w

/-- The outcome is a next state. -/
def answers (r : Result) : Bool := match r with
  | .next _ => true
  | .fault _ => false
  | .refused _ => false

theorem answers_next (r : Result) (h : answers r = true) : ∃ t, r = .next t := by
  cases r with
  | next t => exact ⟨t, rfl⟩
  | fault _ => cases h
  | refused _ => cases h

theorem illegal_word (w : Word) (h : illegal w = true) (i : Instr) : decodeWord w ≠ .ok i := by
  intro e
  rw [illegal, e] at h
  cases h

/-! #### Encoding -/

theorem witness_DecodeOfEncodeIsTheInstruction : (Instr.drw 15 0 15).WellFormed ∧ (Instr.jp 0xFFF).WellFormed := by
  decide
theorem witness_DecoderAgreesWithOpcodeMap : decodeWord 0x8AB4#16 = .ok (.addReg 0xA 0xB) ∧
    opcodeRow (.addReg 0xA 0xB) ∈ opcodeMap ∧ (opcodeRow (.addReg 0xA 0xB)).selects 0x8AB4#16 = true := by decide
theorem witness_DecodeDropsOnlyIgnoredBits : decodeWord 0x5ABF#16 = .ok (.seReg 0xA 0xB) ∧
    decodeWord 0x9ABF#16 = .ok (.sneReg 0xA 0xB) ∧ decodeWord 0x8AF6#16 = .ok (.shr 0xA) ∧
    decodeWord 0x8AFE#16 = .ok (.shl 0xA) ∧ decodeWord 0x8AF7#16 = .ok (.subnReg 0xA 0xF) := by decide
theorem witness_IllegalWordsExactlyAndTheyHalt : (placed 0x00E1).Fetches 0x00E1#16 ∧
    ∀ i, decodeWord 0x00E1#16 ≠ .ok i :=
  ⟨by unfold State.Fetches State.CoreIsNext; decide, illegal_word _ (by decide)⟩

/-! #### Boot and memory -/

theorem witness_BootMemoryMap : (List.replicate 3584 (0x12 : Byte)).length ≤ 3584 ∧ ([] : List Byte).length ≤ 3584 :=
  ⟨List.length_replicate.le, Nat.zero_le _⟩
theorem witness_OversizedProgramNeverRuns : 3584 < (List.replicate 3585 (0x12 : Byte)).length ∧
    State.reset.CoreIsNext ∧ { State.reset with agenda := [.pass, .tick] }.CoreIsNext :=
  ⟨List.length_replicate.ge, rfl, rfl⟩
theorem witness_MemReadAndMemWrite_in : 1 ≤ 1 ∧ 4095 + 1 - 1 ≤ 4095 ∧ (State.reset.memRead 4095 1).isSome = true ∧
    (State.reset.memWrite 4094 [1, 2]).isSome = true := by decide
theorem witness_MemReadAndMemWrite_out : 4095 + 2 - 1 > 4095 ∧ State.reset.memRead 4095 2 = none ∧
    (State.reset.memWrite 4096 [1]).isSome = false := by decide

/-! #### The cycle -/

theorem witness_StepRunsTheDecodedInstruction : (placed 0x6AFF).Fetches 0x6AFF#16 ∧
    decodeWord 0x6AFF#16 = .ok (.ldImm 0xA 0xFF) := by
  unfold State.Fetches State.CoreIsNext; decide
theorem witness_StepRunsTheDecodedInstruction_failing : (placed 0x00EE).Fetches 0x00EE#16 ∧
    decodeWord 0x00EE#16 = .ok .ret ∧ (placed 0x00EE).sp.val = 0 := by
  unfold State.Fetches State.CoreIsNext; decide
theorem witness_FetchPastMemoryHalts : let s := State.reset.setPc 0x0FFF
    s.CoreIsNext ∧ s.mode = .running ∧ s.quit = false ∧ s.pc.toNat > 0xFFE := by unfold State.CoreIsNext; decide
theorem witness_HaltedHasNoPassAndNoTick : let s := { State.reset with mode := Mode.halted }
    s.mode = .halted ∧ s.CoreIsNext ∧ { s with agenda := [Event.tick] }.nextEvent = .tick ∧
      { s with agenda := [Event.boot [0x12]] }.nextEvent = .boot [0x12] := by unfold State.CoreIsNext; decide
theorem witness_QuitStopsThePassesAndIsInvisible : let s := { State.reset with quit := true }
    s.quit = true ∧ s.mode ≠ .halted ∧ s.CoreIsNext := by unfold State.CoreIsNext; decide
theorem witness_KeyWaitPass_none : let s := { State.reset with mode := Mode.awaitKey }
    s.CoreIsNext ∧ s.mode = .awaitKey ∧ s.quit = false ∧ ∀ k < 16, s.keys.getLsbD k = false := by
  unfold State.CoreIsNext; decide
theorem witness_KeyWaitPass_last : let s := { State.reset with mode := Mode.awaitKey, keys := 0x8000#16 }
    s.CoreIsNext ∧ s.mode = .awaitKey ∧ s.quit = false ∧ s.keys.getLsbD 15 = true ∧
      ∀ j < 15, s.keys.getLsbD j = false := by
  unfold State.CoreIsNext; decide
theorem witness_TicksLowerBothTimersAndSaturate :
    let s := { State.reset with dt := 2, st := 9, agenda := [.tick, .tick, .tick, .pass] }
    s.mode ≠ .halted ∧ ∀ j < 3, s.eventAt j = .tick := by decide
theorem witness_TicksLowerBothTimersAndSaturate_later :
    let s := { State.reset with mode := Mode.awaitKey, dt := 2, st := 9, later := .repeating [.tick, .tick, .pass] }
    s.mode ≠ .halted ∧ ∀ j < 2, s.eventAt j = .tick := by decide
theorem witness_ARunFollowsItsEndlessSchedule :
    (∃ t : State, Sys2Proof.core.run 1 { State.reset with later := .free 7 , agenda := [.tick] } = .next t) ∧
    0 < { State.reset with agenda := [Event.tick] }.agenda.length ∧
    { State.reset with agenda := [Event.tick] }.later = .repeating [] ∧
    0 < [Event.pass, .tick].length ∧ { State.reset with later := .repeating [.pass, .tick] }.later = .repeating [.pass, .tick] ∧
    { State.reset with later := .free 7 }.later = .free 7 :=
  ⟨⟨_, rfl⟩, by decide, rfl, by decide, rfl, rfl⟩

/-- A running machine for which ticks, and nothing else, come for ever. -/
def TicksForEver (s : State) : Prop := s.agenda = [] ∧ s.later = .repeating [.tick] ∧ s.mode = .running

theorem TicksForEver_nextEvent {s : State} (h : TicksForEver s) : s.nextEvent = .tick := by
  rw [nextEvent_nil h.1, h.2.1]
  rfl
theorem TicksForEver_atPass {s : State} (h : TicksForEver s) : TicksForEver s.atPass :=
  have hr := scheduleRest_repeating h.1 h.2.1
  ⟨congrArg Prod.fst hr, congrArg Prod.snd hr, h.2.2⟩
theorem TicksForEver_eventAt {s : State} (h : TicksForEver s) (k : Nat) : s.eventAt k = .tick := by
  induction k generalizing s with
  | zero => exact TicksForEver_nextEvent h
  | succ k ih => rw [eventAt_succ]; exact ih (TicksForEver_atPass h)
theorem TicksForEver_run {s : State} (h : TicksForEver s) (k : Nat) :
    ∃ t : State, Sys2Proof.core.run k s = .next t ∧ TicksForEver t := by
  induction k generalizing s with
  | zero => exact ⟨s, rfl, h⟩
  | succ k ih =>
    have ha := TicksForEver_atPass h
    have hs : step s = .next (tick s.atPass) := by rw [step, cycleStep, TicksForEver_nextEvent h]; rfl
    have ht : TicksForEver (tick s.atPass) := by
      rw [tick, if_neg (by rw [ha.2.2]; decide)]
      exact ha
    obtain ⟨t, hr, hk⟩ := ih ht
    exact ⟨t, (run_succ_iff k s t).2 ⟨_, hs, hr⟩, hk⟩
theorem witness_TicksThatKeepComingStopDt : let s := { State.reset with dt := 2, later := .repeating [.tick] }
    s.KeepsComing .tick ∧
      ∀ k, ∃ t : State, Sys2Proof.core.run k s = .next t ∧ t.mode ≠ .halted ∧ ∀ x, ¬ t.Runs (.ldDtVx x) := by
  have h : TicksForEver { State.reset with dt := 2, later := .repeating [.tick] } := ⟨rfl, rfl, rfl⟩
  refine ⟨fun n => ⟨n, Nat.le_refl n, TicksForEver_eventAt h n⟩, fun k => ?_⟩
  obtain ⟨t, hr, ht⟩ := TicksForEver_run h k
  refine ⟨t, hr, by rw [ht.2.2]; decide, fun x => ?_⟩
  rintro ⟨w, hf, _⟩
  have hc : t.nextEvent = .pass := hf.1
  rw [TicksForEver_nextEvent ht] at hc
  cases hc

/-- One state whose step answers a next state: the hypothesis of TimersNeverRiseUnasked, MemoryChanges…,
FramebufferChanges…, StackChanges…, IndexChanges…, ModeChanges…, and with `CoreIsNext` of QuitStops…, HostInputs…. -/
theorem witness_step_answers : (placed 0xF015).CoreIsNext ∧ ∃ t, step (placed 0xF015) = .next t :=
  ⟨by unfold State.CoreIsNext; decide, answers_next _ (by decide)⟩
theorem witness_tick_answers : let s := { State.reset with agenda := [Event.tick] }
    s.nextEvent = .tick ∧ ∃ t, step s = .next t := ⟨rfl, _, rfl⟩

/-! #### Control transfer -/

theorem witness_CallPushesAndJumps : ({ State.reset with sp := 15 } : State).sp.val < 16 ∧
    ({ State.reset with sp := 16 } : State).sp.val = 16 := by decide
theorem witness_RetPopsIntoPc : ({ State.reset with sp := 16 } : State).sp.val = (15 : Fin 16).val + 1 ∧
    ({ State.reset with sp := 1 } : State).sp.val = (0 : Fin 16).val + 1 ∧ State.reset.sp.val = 0 := by decide
theorem witness_CallThenRetReturns : State.reset.sp.val < 16 ∧ ∃ t, exec (.call 0x300) State.reset = .next t ∧
    { t with pc := 0x0400 }.sp = t.sp ∧ { t with pc := 0x0400 }.stk = t.stk := by
  refine ⟨by decide, ?_⟩
  obtain ⟨t, h⟩ := answers_next (exec (.call 0x300) State.reset) (by decide)
  exact ⟨t, h, rfl, rfl⟩

/-! #### Registers and memory instructions -/

theorem witness_flag_in_another_register : (0 : Reg) ≠ VF ∧ (14 : Reg) ≠ VF := by decide
theorem witness_RandomByteUnderMask : { State.reset with draws := [0xA7] }.draws = 0xA7 :: [] ∧
    State.reset.draws = [] := by decide
theorem witness_AddToIndex : let s := (withRegs [(1, 1)]).setIdx 0xFFFF
    s.idx.toNat + (s.reg 0).toNat ≤ 0xFFFF ∧ s.idx.toNat + (s.reg 1).toNat > 0xFFFF := by decide
theorem witness_StoreDecimalDigits : (State.reset.setIdx 0x0FFD).dataAddr + 2 ≤ 4095 ∧
    (State.reset.setIdx 0x0FFE).dataAddr + 2 > 4095 := by decide
theorem witness_register_runs : (State.reset.setIdx 0x0FF0).dataAddr + (15 : Reg).val ≤ 4095 ∧
    (State.reset.setIdx 0x0FF1).dataAddr + (15 : Reg).val > 4095 ∧
    (State.reset.setIdx 0x0FFF).dataAddr + (0 : Reg).val ≤ 4095 ∧
    (State.reset.setIdx 0x1000).dataAddr + (0 : Reg).val > 4095 := by decide
theorem witness_StoreThenLoadRestoresRegisters : let s := State.reset.setIdx 0x0FF0
    s.dataAddr + (15 : Reg).val ≤ 4095 ∧ ∃ t, exec (.storeRegs 15) s = .next t :=
  ⟨by decide, answers_next _ (by decide)⟩

/-! #### Display and keypad -/

/-- I at 0x09E holds the font byte 80 (the last glyph's fourth row): one pixel. -/
theorem witness_DrawInverts_set : let s := State.reset.setIdx 0x009E
    1 < 16 ∧ s.dataAddr + 1 - 1 ≤ 4095 ∧ SpriteSets s (s.reg 0).toNat (s.reg 0).toNat 1 0 0 :=
  ⟨by decide, by decide, 0, 0, by decide, by decide, by decide, by decide, by decide⟩
theorem witness_DrawInverts_collision :
    let s := { State.reset.setIdx 0x009E with fb := Framebuffer.flip blankFramebuffer 0 0 }
    SpriteSets s (s.reg 0).toNat (s.reg 0).toNat 1 0 0 ∧ s.readOut 0 0 = true :=
  ⟨⟨0, 0, by decide, by decide, by decide, by decide, by decide⟩, by decide⟩
theorem witness_DrawInverts_nothing : let s := State.reset.setIdx 0xFFFF
    (0 = 0 ∨ s.dataAddr + 0 - 1 ≤ 4095) ∧ ∀ X Y, ¬ SpriteSets s (s.reg 0).toNat (s.reg 0).toNat 0 X Y :=
  ⟨.inl rfl, fun _ _ ⟨_, _, h, _⟩ => absurd h (Nat.not_lt_zero _)⟩
theorem witness_DrawInverts_last_rows : (State.reset.setIdx 0x0FF1).dataAddr + 15 - 1 ≤ 4095 := by decide
theorem witness_DrawOutOfRangeFails : 1 ≤ 15 ∧ (State.reset.setIdx 0x0FF2).dataAddr + 15 - 1 > 4095 ∧
    (State.reset.setIdx 0x1000).dataAddr + 1 - 1 > 4095 := by decide
theorem witness_DrawTwiceRestores : let s := State.reset.setIdx 0x009E
    1 < 16 ∧ (0 : Reg) ≠ VF ∧ (1 : Reg) ≠ VF ∧ s.dataAddr + 1 - 1 ≤ 4095 ∧ ∃ t, exec (.drw 0 1 1) s = .next t :=
  ⟨by decide, by decide, by decide, by decide, answers_next _ (by decide)⟩
theorem witness_KeySkips : (withRegs [(0, 15)]).reg 0 = 15 ∧ ((withRegs [(0, 15)]).reg 0).toNat ≤ 15 ∧
    ((withRegs [(0, 16)]).reg 0).toNat > 15 := by decide

/-! #### Failures and rules of the whole machine -/

theorem witness_InstructionsFailExactlyAsListed : State.reset.mode ≠ .halted ∧
    (∃ t, exec .ret State.reset = .next t) ∧ instrFailure .ret State.reset = some .stackUnderflow :=
  ⟨by decide, answers_next _ (by decide), by decide⟩
theorem witness_FailuresArePrecise : let s := placed 0x00EE
    s.mode = .running ∧ s.CoreIsNext ∧ ∃ t, step s = .next t ∧ t.mode = .halted := by
  refine ⟨by decide, by unfold State.CoreIsNext; decide, ?_⟩
  have h : runs State.reset 0x00EE (fun t => t.mode == .halted) = true := by decide
  unfold runs at h
  split at h
  · rename_i t ht
    exact ⟨t, ht, by simpa using h⟩
  · cases h
  · cases h
theorem witness_RegistersChangeOnlyAsDestinations : ∃ t, exec (.addReg 0 1) State.reset = .next t := ⟨_, rfl⟩
theorem witness_InstructionRegisterHasNoInfluence : (placed 0x6AFF).Runs (.ldImm 0xA 0xFF) ∧
    runs State.reset 0x6AFF (fun t => t.mode != .halted) = true :=
  ⟨⟨0x6AFF#16, by unfold State.Fetches State.CoreIsNext; decide, by decide⟩, by decide⟩

/-- A state inside a subroutine, with a cell of memory changed. -/
def inSubroutine : State :=
  { State.reset with pc := 0x0300, sp := 1, stk := State.reset.stk.set 0 0x0202, mem := [(0x301, 0xEE)] }

theorem witness_EveryStepKeepsTheInvariant : inSubroutine.Inv ∧ ∃ t, step inSubroutine = .next t :=
  ⟨⟨by unfold State.MemWf; decide, by unfold State.FaultIffHalted; decide, by unfold State.PcInRange; decide,
    by unfold State.LiveSlotsInRange; decide⟩, answers_next _ (by decide)⟩

end Sys2Proof.Tests
end

section
/-! PROOF. O57, the instruction register (10_state.md R23): a pass reads everything but IR, and hands IR on in one of
two ways only, kept as it stood or overwritten by the fetch. -/

namespace Sys2Proof.Machine

/-- `IR <- w` (R7). -/
def State.setIr (s : State) (w : Word) : State := { s with ir := w }

/-- An outcome with the IR of its next state struck out. -/
def forgetIr (r : Result) : Result := mapNext (fun t => t.setIr 0#16) r

section
variable (s : State) (w : Word)

/-! #### What a step reads before it acts does not involve IR -/

@[simp] theorem setIr_mode : (s.setIr w).mode = s.mode := rfl
@[simp] theorem setIr_quit : (s.setIr w).quit = s.quit := rfl
@[simp] theorem setIr_nextEvent : (s.setIr w).nextEvent = s.nextEvent := rfl
@[simp] theorem setIr_fetchWord : (s.setIr w).fetchWord = s.fetchWord := rfl

/-- The schedule moves on alike whatever IR holds. -/
@[simp] theorem setIr_atPass : (s.setIr w).atPass = s.atPass.setIr w := rfl

/-- The fetch overwrites IR (R82), so no trace of its old value reaches the instruction. -/
@[simp] theorem setIr_fetched (x : Word) : (s.setIr w).fetched x = s.fetched x := rfl

theorem setIr_fetches (x : Word) : (s.setIr w).Fetches x ↔ s.Fetches x := Iff.rfl

@[simp] theorem forgetIr_next_setIr : forgetIr (.next (s.setIr w)) = forgetIr (.next s) := rfl

/-! #### What the agents do commutes with a change of IR -/

theorem setIr_halt (k : FailureKind) (x : Option Word) : (s.setIr w).halt k x = (s.halt k x).setIr w := rfl

theorem setIr_keyWaitPass : keyWaitPass (s.setIr w) = (keyWaitPass s).setIr w := by
  have hkeys : (s.setIr w).keys = s.keys := rfl
  unfold keyWaitPass
  rw [hkeys]
  cases lowestKey s.keys <;> rfl

theorem setIr_tick : tick (s.setIr w) = (tick s).setIr w := by
  unfold tick
  rw [setIr_mode]
  split <;> rfl

/-- Boot makes every component of the core anew, IR among them (70_reset_and_hazards.md R167). -/
theorem setIr_boot (rom : List Byte) : (s.setIr w).boot rom = s.boot rom := rfl

/-! #### The commit rule: IR of the state before a pass is read only when the pass halts (40_cycle.md R91) -/

theorem forgetIr_settle (r : Result) : forgetIr (settle (s.setIr w) r) = forgetIr (settle s r) := by
  cases r with
  | next t =>
    unfold settle
    by_cases hh : t.mode = .halted
    · simp only [hh, if_true]
      rfl
    · simp only [hh, if_false]
  | fault f => rfl
  | refused q => rfl

/-- A pass that does not halt commits what the instruction answered, whatever the state before it was. -/
theorem settle_of_not_halted {before t : State} {r : Result} (h : settle before r = .next t)
    (ht : t.mode ≠ .halted) : r = .next t := by
  cases r with
  | next u =>
    unfold settle at h
    by_cases hu : u.mode = .halted
    · simp only [hu, if_true, Host.Outcome.next.injEq] at h
      exact absurd (h ▸ rfl) ht
    · simpa only [hu, if_false] using h
  | fault f => cases h
  | refused q => cases h

theorem settle_next_of_not_halted (before : State) {t : State} (ht : t.mode ≠ .halted) :
    settle before (.next t) = .next t := by
  simp only [settle, ht, if_false]

/-! #### The passes and the step -/

theorem forgetIr_runningPass : forgetIr (runningPass (s.setIr w)) = forgetIr (runningPass s) := by
  unfold runningPass
  rw [setIr_fetchWord]
  cases s.fetchWord with
  | none => simp only [setIr_halt, forgetIr_next_setIr]
  | some x =>
    cases hd : decodeWord x with
    | error e => simp only [hd, setIr_halt, forgetIr_next_setIr]
    | ok i => simp only [hd, setIr_fetched, forgetIr_settle]

theorem forgetIr_corePass : forgetIr (corePass (s.setIr w)) = forgetIr (corePass s) := by
  unfold corePass
  rw [setIr_mode, setIr_quit, setIr_keyWaitPass]
  cases s.mode with
  | halted => rfl
  | awaitKey => cases s.quit <;> rfl
  | running =>
    cases s.quit with
    | true => rfl
    | false => exact forgetIr_runningPass s w

theorem forgetIr_act (e : Event) : forgetIr (act e (s.setIr w)) = forgetIr (act e s) := by
  cases e with
  | pass => exact forgetIr_corePass s w
  | tick => simp only [act, setIr_tick, forgetIr_next_setIr]
  | setKeys keys => rfl
  | setQuit => rfl
  | boot rom => simp only [act, setIr_boot]

theorem forgetIr_step : forgetIr (step (s.setIr w)) = forgetIr (step s) := by
  unfold step cycleStep
  rw [setIr_nextEvent, setIr_atPass]
  exact forgetIr_act s.atPass w s.nextEvent

end

/-- A step that runs an instruction is that instruction after the fetch, under the commit rule: IR before the step
enters through the commit rule alone. -/
theorem step_setIr_eq_settle_of_runs {s : State} {i : Instr} (hi : s.Runs i) :
    ∃ x, ∀ y, step (s.setIr y) = settle (s.atPass.setIr y) (exec i (s.atPass.fetched x)) := by
  obtain ⟨x, hf, hd⟩ := hi
  refine ⟨x, fun y => ?_⟩
  rw [step_of_fetches _ x ((setIr_fetches s y x).mpr hf), hd, setIr_atPass, setIr_fetched]

/-- Where an instruction runs without failing, IR before the step leaves no trace at all, not even in IR. -/
theorem step_setIr_of_runs {s t : State} {i : Instr} (hi : s.Runs i) (hstep : step s = .next t)
    (ht : t.mode ≠ .halted) (w : Word) : step (s.setIr w) = .next t := by
  obtain ⟨x, hrun⟩ := step_setIr_eq_settle_of_runs hi
  have hexec : exec i (s.atPass.fetched x) = .next t :=
    settle_of_not_halted ((hrun s.ir).symm.trans hstep) ht
  rw [hrun w, hexec, settle_next_of_not_halted _ ht]

/-- Settles O57: the step commutes with striking out IR (agent by agent), and an instruction that runs sees only the
IR that its own fetch wrote. -/
theorem instructionRegisterHasNoInfluence : Obligations.InstructionRegisterHasNoInfluence := by
  unfold Obligations.InstructionRegisterHasNoInfluence
  intro s w
  exact ⟨forgetIr_step s w, fun _ hi _ hstep ht => step_setIr_of_runs hi hstep ht w⟩

end Sys2Proof.Machine
end

section
/-! PROOF. O7 and O9, memory (20_memory.md R42, R43, R51): an access that fits moves every byte, one that does not fit
moves none, and boot lays the program over the font table and zeros. -/

namespace Sys2Proof.Machine

/-! #### The two accesses, in range and out of range -/

section
variable {addr n : Nat}

/-- A read that fits answers the bytes in order (R42). -/
theorem memRead_of_fits (s : State) (h : n = 0 ∨ addr + n - 1 ≤ 4095) :
    s.memRead addr n = some ((List.range n).map fun k => s.readByte (addr + k)) := by
  rw [memRead_eq, if_pos h]

theorem memRead_of_not_fits (s : State) (hn : 1 ≤ n) (h : addr + n - 1 > 4095) : s.memRead addr n = none := by
  rw [memRead_eq, if_neg (by omega)]

/-- A write that fits stores its bytes (R43). -/
theorem memWrite_of_fits (s : State) {bs : List Byte} (h : bs.length = 0 ∨ addr + bs.length - 1 ≤ 4095) :
    s.memWrite addr bs = some (s.setMem (Memory.writeBytes (bootByte s.font) s.mem addr bs)) := by
  rw [memWrite_eq, if_pos h]

theorem memWrite_of_not_fits (s : State) {bs : List Byte} (hn : 1 ≤ bs.length) (h : addr + bs.length - 1 > 4095) :
    s.memWrite addr bs = none := by
  rw [memWrite_eq, if_neg (by omega)]

end

/-! #### What a store changes -/

section
variable (s : State) (addr : Nat) (bs : List Byte)

theorem readByte_stored (k : Nat) (h : k < bs.length) :
    (s.setMem (Memory.writeBytes (bootByte s.font) s.mem addr bs)).readByte (addr + k) = bs[k] := by
  rw [readByte_setMem_writeBytes, dif_pos (by omega)]
  simp only [Nat.add_sub_cancel_left]

theorem readByte_outside_store (a : Nat) (h : a < addr ∨ addr + bs.length ≤ a) :
    (s.setMem (Memory.writeBytes (bootByte s.font) s.mem addr bs)).readByte a = s.readByte a := by
  rw [readByte_setMem_writeBytes, dif_neg (by omega)]

/-- Replacing the memory leaves every other component alone. -/
theorem allButMemKept_setMem (m : Memory) : AllButMemKept s (s.setMem m) :=
  ⟨fun _ _ => rfl, rfl, rfl, ⟨rfl, rfl⟩, ⟨rfl, rfl⟩, fun _ _ => rfl, ⟨rfl, rfl, rfl⟩,
    ⟨rfl, rfl, rfl, rfl, rfl, rfl⟩, ⟨rfl, rfl⟩⟩

end

/-- Settles O9: the range check decides between the failure and the whole access, and a store is read back byte by
byte. -/
theorem memReadAndMemWrite : Obligations.MemReadAndMemWrite := by
  unfold Obligations.MemReadAndMemWrite
  intro s addr
  refine ⟨memRead_of_fits s (.inl rfl), fun _ => memRead_of_not_fits s, fun n _ h => ?_,
    fun _ => memWrite_of_not_fits s, fun bs _ h => ?_⟩
  · refine ⟨_, memRead_of_fits s (.inr h), ?_, fun k hk => ?_⟩
    · rw [List.length_map, List.length_range]
    · rw [List.getElem_map, List.getElem_range]
  · exact ⟨_, memWrite_of_fits s (.inr h), readByte_stored s addr bs, readByte_outside_store s addr bs,
      allButMemKept_setMem s _⟩

/-! #### Boot: reset, then the program at 0x200 -/

section
variable (s : State)

/-- After reset a cell holds its boot contents (R51). -/
@[simp] theorem hostReset_readByte (a : Nat) : s.hostReset.readByte a = bootByte s.font a := rfl

variable {rom : List Byte} (h : rom.length ≤ 3584)
include h

/-- A program that fits is stored in the state after reset, and nothing else is done (R169, R170). -/
theorem boot_of_fits : s.boot rom =
    s.hostReset.setMem (Memory.writeBytes (bootByte s.hostReset.font) s.hostReset.mem 0x200 rom) := by
  unfold State.boot State.loadProgram
  exact if_neg (Nat.not_lt.mpr h)

theorem boot_pc_of_fits : (s.boot rom).pc = 0x0200#16 := by
  rw [boot_of_fits s h]
  rfl

theorem readByte_boot_program (k : Nat) (hk : k < rom.length) : (s.boot rom).readByte (0x200 + k) = rom[k] := by
  rw [boot_of_fits s h]
  exact readByte_stored s.hostReset 0x200 rom k hk

theorem readByte_boot_outside (a : Nat) (ha : a < 0x200 ∨ 0x200 + rom.length ≤ a) :
    (s.boot rom).readByte a = bootByte s.font a := by
  rw [boot_of_fits s h, readByte_outside_store s.hostReset 0x200 rom a ha, hostReset_readByte]

end

/-- Settles O7: the program lies above the font table, so every cell outside it keeps its boot contents. -/
theorem bootMemoryMap : Obligations.BootMemoryMap := by
  unfold Obligations.BootMemoryMap
  intro s rom h
  refine ⟨boot_pc_of_fits s h, readByte_boot_program s h, fun k => ?_, fun a ha => ?_⟩
  · rw [readByte_boot_outside s h _ (by omega), bootByte_font]
  · rw [readByte_boot_outside s h a (by omega), bootByte_outside s.font a (by omega)]

end Sys2Proof.Machine
end

section
/-! PROOF. O19 and O21, jumps and skips (41_control.md R93, R95, R97 to R100): each of them writes pc and nothing
else. -/

namespace Sys2Proof.Machine

/-! #### What the five instructions end in, one equation per instruction -/

section
variable (s : State) (nnn : BitVec 12) (x y : Reg) (kk : Byte)

theorem exec_jp_eq_setPc : exec (.jp nnn) s = .next (s.setPc (addrOperand nnn)) := rfl
theorem exec_seImm_eq_skipIf : exec (.seImm x kk) s = s.skipIf (s.reg x == kk) := rfl
theorem exec_sneImm_eq_skipIf : exec (.sneImm x kk) s = s.skipIf (s.reg x != kk) := rfl
theorem exec_seReg_eq_skipIf : exec (.seReg x y) s = s.skipIf (s.reg x == s.reg y) := rfl
theorem exec_sneReg_eq_skipIf : exec (.sneReg x y) s = s.skipIf (s.reg x != s.reg y) := rfl

end

/-! #### Writing pc, at once and under a condition -/

/-- Replacing pc leaves every other component alone. -/
theorem allButPcKept_setPc (s : State) (w : Word) : AllButPcKept s (s.setPc w) :=
  ⟨fun _ _ => rfl, ⟨rfl, ⟨rfl, rfl⟩, ⟨rfl, rfl⟩, fun _ => rfl, fun _ _ => rfl, ⟨rfl, rfl, rfl⟩,
    ⟨rfl, rfl, rfl, rfl, rfl, rfl⟩⟩, ⟨rfl, rfl⟩⟩

/-- A skip that is not taken writes pc back as it stands, so the one frame serves both outcomes. -/
theorem skipIf_eq_setPc (s : State) (c : Bool) :
    s.skipIf c = .next (s.setPc (if c then s.pc + 2#16 else s.pc)) := by
  cases c <;> rfl

/-- A skip whose condition decides `p` adds 2 to pc exactly when `p` holds, and changes nothing else (R93). -/
theorem skipIf_advances_iff (s : State) {c : Bool} {p : Prop} [Decidable p] (hc : c = true ↔ p) :
    ∃ t, s.skipIf c = .next t ∧ t.pc = (if p then s.pc + 2#16 else s.pc) ∧ AllButPcKept s t :=
  ⟨_, skipIf_eq_setPc s c, by simp only [State.setPc_pc, hc], allButPcKept_setPc s _⟩

/-- Settles O19: the jump is one write of pc. -/
theorem jumpSetsPc : Obligations.JumpSetsPc := by
  unfold Obligations.JumpSetsPc
  intro nnn s
  exact ⟨_, exec_jp_eq_setPc s nnn, toNat_addrOperand nnn, allButPcKept_setPc s _⟩

/-- Settles O21: the four skips are one operation, under an equality test or its negation. -/
theorem skipsAdvancePcByTwo : Obligations.SkipsAdvancePcByTwo := by
  unfold Obligations.SkipsAdvancePcByTwo
  intro x y kk s
  rw [exec_seImm_eq_skipIf, exec_sneImm_eq_skipIf, exec_seReg_eq_skipIf, exec_sneReg_eq_skipIf]
  exact ⟨skipIf_advances_iff s beq_iff_eq, skipIf_advances_iff s bne_iff_ne,
    skipIf_advances_iff s beq_iff_eq, skipIf_advances_iff s bne_iff_ne⟩

end Sys2Proof.Machine
end

section
/-! PROOF. O25 and O26, the loads and `ADD Vx,kk` (42_alu.md R104 to R106, 45_keypad_timers.md R140): each of them
writes its destination register and nothing else. -/

namespace Sys2Proof.Machine

/-! #### What the four instructions end in, one equation per instruction -/

section
variable (s : State) (x y : Reg) (kk : Byte)

theorem exec_ldImm_eq_setReg : exec (.ldImm x kk) s = .next (s.setReg x kk) := rfl
theorem exec_ldReg_eq_setReg : exec (.ldReg x y) s = .next (s.setReg x (s.reg y)) := rfl
theorem exec_ldVxDt_eq_setReg : exec (.ldVxDt x) s = .next (s.setReg x s.dt) := rfl
theorem exec_addImm_eq_setReg : exec (.addImm x kk) s = .next (s.setReg x (addByte (s.reg x) kk)) := rfl

end

/-! #### Writing one register -/

section
variable (s : State) (x : Reg) (b : Byte)

/-- A write of one register leaves every other one, VF among them, and all that lies outside the registers alone. -/
theorem onlyRegsWritten_setReg : OnlyRegsWritten [x] s (s.setReg x b) :=
  ⟨fun _ hr => reg_setReg_ne s b (List.ne_of_not_mem_cons hr), rfl, rfl, ⟨rfl, rfl⟩, ⟨rfl, rfl⟩, fun _ => rfl,
    fun _ _ => rfl, ⟨rfl, rfl, rfl⟩, ⟨rfl, rfl, rfl, rfl, rfl, rfl⟩⟩

theorem drawsKept_setReg : DrawsKept s (s.setReg x b) := ⟨rfl, rfl⟩

/-- An instruction that ends in a write of one register leaves the byte written there, and changes nothing else. -/
theorem next_setReg_loads : ∃ t, (.next (s.setReg x b) : Result) = .next t ∧ t.reg x = b ∧
    OnlyRegsWritten [x] s t ∧ DrawsKept s t :=
  ⟨_, rfl, reg_setReg_same s x b, onlyRegsWritten_setReg s x b, drawsKept_setReg s x b⟩

end

/-- Settles O25: the three loads are one write of a register, from three sources. -/
theorem registerLoads : Obligations.RegisterLoads := by
  unfold Obligations.RegisterLoads
  intro x y kk s
  rw [exec_ldImm_eq_setReg, exec_ldReg_eq_setReg, exec_ldVxDt_eq_setReg]
  exact ⟨next_setReg_loads s x kk, next_setReg_loads s x (s.reg y), next_setReg_loads s x s.dt⟩

/-- Settles O26: the one register written is the destination, so VF takes no flag. -/
theorem addImmediateWrapsWithoutFlag : Obligations.AddImmediateWrapsWithoutFlag := by
  unfold Obligations.AddImmediateWrapsWithoutFlag
  intro x kk s
  refine ⟨_, exec_addImm_eq_setReg s x kk, ?_, onlyRegsWritten_setReg s x _, drawsKept_setReg s x _⟩
  rw [reg_setReg_same, toNat_addByte]

end Sys2Proof.Machine
end

section
/-! PROOF. O32 and O54, the index register (43_index_memory.md R119, R125; 10_state.md R19): the three instructions
that write I, and why nothing else but boot moves it. -/

namespace Sys2Proof.Machine

/-! #### Writing I -/

theorem exec_ldI_eq_setIdx (nnn : BitVec 12) (s : State) : exec (.ldI nnn) s = .next (s.setIdx (addrOperand nnn)) := rfl

/-- Replacing I leaves every other component alone. -/
theorem allButIdxKept_setIdx (s : State) (w : Word) : AllButIdxKept s (s.setIdx w) :=
  ⟨fun _ _ => rfl, rfl, ⟨rfl, rfl⟩, ⟨rfl, rfl⟩, fun _ => rfl, fun _ _ => rfl, ⟨rfl, rfl, rfl⟩,
    ⟨rfl, rfl, rfl, rfl, rfl, rfl⟩, ⟨rfl, rfl⟩⟩

/-- Settles O32: the instruction is one write of I. -/
theorem loadIndexImmediate : Obligations.LoadIndexImmediate := by
  unfold Obligations.LoadIndexImmediate
  intro nnn s
  exact ⟨_, exec_ldI_eq_setIdx nnn s, toNat_addrOperand nnn, allButIdxKept_setIdx s _⟩

/-! #### Outcomes that leave I as it was -/

/-- Where the outcome `r` is a next state, its I is that of `s`. -/
def KeepsIdx (s : State) (r : Result) : Prop := ∀ t, r = .next t → t.idx = s.idx

section
variable {s : State}

theorem keepsIdx_next {t : State} (h : t.idx = s.idx) : KeepsIdx s (.next t) :=
  fun _ ht => Host.Outcome.next.inj ht ▸ h

theorem FailedWith.idx_eq {k : FailureKind} {t : State} (h : FailedWith k s t) : t.idx = s.idx := by
  obtain ⟨-, -, -, -, hidx, -⟩ := h
  exact hidx

/-- An operation that may fail keeps I where its success does: a failure never moves I (60_exceptions.md R144). -/
theorem keepsIdx_nextOr {k : FailureKind} {o : Option State} (h : ∀ t, o = some t → t.idx = s.idx) :
    KeepsIdx s (s.nextOr k o) := fun t ht =>
  (nextOr_cases s t k o ht).elim (h t) fun hfail => hfail.2.idx_eq

theorem keepsIdx_nextOr_map {α : Type} {k : FailureKind} {o : Option α} {f : α → State}
    (h : ∀ a, o = some a → (f a).idx = s.idx) : KeepsIdx s (s.nextOr k (o.map f)) :=
  keepsIdx_nextOr fun t ht => by
    obtain ⟨a, ha, rfl⟩ := Option.map_eq_some_iff.mp ht
    exact h a ha

theorem keepsIdx_skipIf (c : Bool) : KeepsIdx s (s.skipIf c) := by
  rw [skipIf_eq_setPc]
  exact keepsIdx_next rfl

theorem keepsIdx_skipIfKey (k : Byte) (wanted : Bool) : KeepsIdx s (s.skipIfKey k wanted) := by
  unfold State.skipIfKey
  cases s.keyRead k with
  | some pressed => exact keepsIdx_skipIf _
  | none => exact keepsIdx_next rfl

end

/-! #### The state operations that leave I as it was -/

section
variable {s t : State}

theorem idx_of_push {w : Word} (h : s.push w = some t) : t.idx = s.idx := by
  obtain ⟨_, rfl⟩ := (push_eq_some_iff s t w).mp h
  rfl

theorem idx_of_pop {p : Word × State} (h : s.pop = some p) : p.2.idx = s.idx := by
  obtain ⟨_, rfl⟩ := (pop_eq_some_iff s p).mp h
  rfl

/-- A store writes memory alone, so it does not advance I (R125). -/
theorem idx_of_memWrite {addr : Nat} {bs : List Byte} (h : s.memWrite addr bs = some t) : t.idx = s.idx := by
  rw [memWrite_eq] at h
  obtain ⟨-, hstored⟩ := Option.ite_none_right_eq_some.mp h
  exact Option.some.inj hstored ▸ rfl

theorem draw_idx (s : State) : s.draw.2.idx = s.idx := by
  obtain ⟨r, ds, hdraw, -⟩ := draw_eq s
  rw [hdraw]

end

/-! #### Every instruction, every event -/

/-- `LD I,nnn`, `ADD I,Vx` and `LD F,Vx`: the instructions that 10_state.md R19 lists as writers of I. -/
def IsIndexInstr (i : Instr) : Prop := (∃ nnn, i = .ldI nnn) ∨ (∃ x, i = .addI x) ∨ (∃ x, i = .ldF x)

/-- An instruction outside R19's list leaves I as it was, also where it fails. -/
theorem exec_keepsIdx (i : Instr) (s : State) : IsIndexInstr i ∨ KeepsIdx s (exec i s) := by
  cases i with
  | ldI nnn => exact .inl (.inl ⟨nnn, rfl⟩)
  | addI x => exact .inl (.inr (.inl ⟨x, rfl⟩))
  | ldF x => exact .inl (.inr (.inr ⟨x, rfl⟩))
  | cls | jp | jpV0 | ldImm | addImm | ldReg | orReg | andReg | xorReg | addReg | subReg | shr | subnReg | shl
  | ldVxDt | ldVxK | ldDtVx | ldStVx => exact .inr (keepsIdx_next rfl)
  | seImm | sneImm | seReg | sneReg => exact .inr (keepsIdx_skipIf _)
  | skp | sknp => exact .inr (keepsIdx_skipIfKey _ _)
  | ret => exact .inr (keepsIdx_nextOr_map fun _ => idx_of_pop)
  | call nnn => exact .inr (keepsIdx_nextOr_map fun _ => idx_of_push)
  | rnd x kk => exact .inr (keepsIdx_next (draw_idx s))
  | drw | loadRegs => exact .inr (keepsIdx_nextOr_map fun _ _ => rfl)
  | ldB | storeRegs => exact .inr (keepsIdx_nextOr fun _ => idx_of_memWrite)

section
variable (s : State)

theorem keyWaitPass_idx : (keyWaitPass s).idx = s.idx := by
  unfold keyWaitPass
  cases lowestKey s.keys <;> rfl

theorem tick_idx : (tick s).idx = s.idx := by
  unfold tick
  split <;> rfl

end

/-- Settles O54: of everything a step can do, only an instruction of R19's list and boot reach I; the commit rule of a
pass that halts brings back the old I. -/
theorem indexChangesOnlyByIndexInstructions : Obligations.IndexChangesOnlyByIndexInstructions := by
  unfold Obligations.IndexChangesOnlyByIndexInstructions
  intro s t hstep
  rcases step_next_cases hstep with ⟨-, -, -, -, rfl⟩ | ⟨w, -, -, rfl⟩ | ⟨w, i, u, hfetch, hdec, hexec, rfl⟩ |
    ⟨-, -, -, rfl⟩ | ⟨-, rfl⟩ | ⟨k, -, rfl⟩ | ⟨-, rfl⟩ | ⟨rom, hboot, -⟩
  · exact .inl rfl
  · exact .inl rfl
  · have hruns : s.Runs i := ⟨w, hfetch, hdec⟩
    rcases exec_keepsIdx i (s.atPass.fetched w) with (⟨nnn, rfl⟩ | ⟨x, rfl⟩ | ⟨x, rfl⟩) | hkeep
    · exact .inr (.inl ⟨nnn, hruns⟩)
    · exact .inr (.inr (.inl ⟨x, hruns⟩))
    · exact .inr (.inr (.inr (.inl ⟨x, hruns⟩)))
    · left
      split
      · rfl
      · exact hkeep u hexec
  · exact .inl (keyWaitPass_idx s.atPass)
  · exact .inl (tick_idx s.atPass)
  · exact .inl rfl
  · exact .inl rfl
  · exact .inr (.inr (.inr (.inr ⟨rom, hboot⟩)))

end Sys2Proof.Machine
end

section
/-! PROOF. O39, clearing the display (44_display.md R127): `CLS` replaces the framebuffer by a blank one and changes
nothing else. -/

namespace Sys2Proof.Machine

section
variable (s : State)

theorem exec_cls_eq_setFb : exec .cls s = .next (s.setFb blankFramebuffer) := rfl

/-- After a write of the framebuffer the read-out (R134) is that of the framebuffer written. -/
@[simp] theorem setFb_readOut (fb : Framebuffer) (x : Fin 64) (y : Fin 32) :
    (s.setFb fb).readOut x y = Framebuffer.pixel fb x y := by
  rw [readOut_eq_pixel, State.setFb_fb]

theorem setFb_blank_readOut (x : Fin 64) (y : Fin 32) : (s.setFb blankFramebuffer).readOut x y = false := by
  rw [setFb_readOut, pixel_blank]

/-- Replacing the framebuffer leaves every other component alone, VF included. -/
theorem setFb_keeps_allButFb (fb : Framebuffer) :
    RegsKeptBut [] s (s.setFb fb) ∧ (s.setFb fb).pc = s.pc ∧ (s.setFb fb).idx = s.idx ∧ StackKept s (s.setFb fb) ∧
      TimersKept s (s.setFb fb) ∧ MemKept s (s.setFb fb) ∧ ControlKept s (s.setFb fb) ∧ HostKept s (s.setFb fb) ∧
      DrawsKept s (s.setFb fb) :=
  ⟨fun _ _ => rfl, rfl, rfl, ⟨rfl, rfl⟩, ⟨rfl, rfl⟩, fun _ => rfl, ⟨rfl, rfl, rfl⟩,
    ⟨rfl, rfl, rfl, rfl, rfl, rfl⟩, ⟨rfl, rfl⟩⟩

end

/-- Settles O39: the instruction is one write of the framebuffer, with the blank one. -/
theorem clearTurnsEveryPixelOff : Obligations.ClearTurnsEveryPixelOff := by
  unfold Obligations.ClearTurnsEveryPixelOff
  intro s
  exact ⟨_, exec_cls_eq_setFb s, setFb_blank_readOut s, setFb_keeps_allButFb s blankFramebuffer⟩

end Sys2Proof.Machine
end

section
/-! PROOF. O45, the timer loads (45_keypad_timers.md R141, R142): each of them writes its timer and nothing else. -/

namespace Sys2Proof.Machine

/-- Everything but the two timers is unchanged, pc included. -/
def AllButTimersKept (s t : State) : Prop :=
  RegsKeptBut [] s t ∧ t.pc = s.pc ∧ t.idx = s.idx ∧ StackKept s t ∧ MemKept s t ∧ FbKept s t ∧ ControlKept s t ∧
    HostKept s t ∧ DrawsKept s t

section
variable (s : State)

theorem exec_ldDtVx_eq_setDt (x : Reg) : exec (.ldDtVx x) s = .next (s.setDt (s.reg x)) := rfl

theorem exec_ldStVx_eq_setSt (x : Reg) : exec (.ldStVx x) s = .next (s.setSt (s.reg x)) := rfl

theorem allButTimersKept_setDt (b : Byte) : AllButTimersKept s (s.setDt b) :=
  ⟨fun r _ => State.setDt_reg s b r, State.setDt_pc s b, State.setDt_idx s b, ⟨rfl, rfl⟩, State.setDt_readByte s b,
    State.setDt_readOut s b, ⟨rfl, rfl, rfl⟩, ⟨rfl, rfl, rfl, rfl, rfl, rfl⟩, ⟨rfl, rfl⟩⟩

theorem allButTimersKept_setSt (b : Byte) : AllButTimersKept s (s.setSt b) :=
  ⟨fun r _ => State.setSt_reg s b r, State.setSt_pc s b, State.setSt_idx s b, ⟨rfl, rfl⟩, State.setSt_readByte s b,
    State.setSt_readOut s b, ⟨rfl, rfl, rfl⟩, ⟨rfl, rfl, rfl, rfl, rfl, rfl⟩, ⟨rfl, rfl⟩⟩

end

/-- Settles O45: each instruction is one write of its own timer, which reads back as written and leaves the other timer
and everything outside the timers alone. -/
theorem timerLoads : Obligations.TimerLoads := by
  unfold Obligations.TimerLoads
  intro x s
  constructor
  · exact ⟨_, exec_ldDtVx_eq_setDt s x, State.setDt_dt s _, State.setDt_st s _, allButTimersKept_setDt s _⟩
  · exact ⟨_, exec_ldStVx_eq_setSt s x, State.setSt_st s _, State.setSt_dt s _, allButTimersKept_setSt s _⟩

end Sys2Proof.Machine
end

section
/-! PROOF. O16, the endless schedule (40_cycle.md R80, 60_exceptions.md R161): no action of an agent writes the
schedule, so a step uses up one event and a run of `k` steps uses up `k`; and what each form of schedule holds, event by
event. -/

namespace Sys2Proof.Machine

/-! #### No instruction writes what belongs to the host -/

/-- Where the outcome `r` is a next state, what belongs to the host is in it as in `s`. -/
def KeepsHost (s : State) (r : Result) : Prop := ∀ t, r = .next t → HostKept s t

section
variable {s : State}

theorem HostKept.refl (s : State) : HostKept s s := ⟨rfl, rfl, rfl, rfl, rfl, rfl⟩

theorem keepsHost_next {t : State} (h : HostKept s t) : KeepsHost s (.next t) :=
  fun _ ht => Host.Outcome.next.inj ht ▸ h

theorem FailedWith.hostKept {k : FailureKind} {t : State} (h : FailedWith k s t) : HostKept s t := by
  obtain ⟨-, -, -, -, -, -, -, -, -, -, hhost, -⟩ := h
  exact hhost

/-- An operation that may fail keeps what belongs to the host where its success does (60_exceptions.md R144). -/
theorem keepsHost_nextOr {k : FailureKind} {o : Option State} (h : ∀ t, o = some t → HostKept s t) :
    KeepsHost s (s.nextOr k o) := fun t ht =>
  (nextOr_cases s t k o ht).elim (h t) fun hfail => hfail.2.hostKept

theorem keepsHost_nextOr_map {α : Type} {k : FailureKind} {o : Option α} {f : α → State}
    (h : ∀ a, o = some a → HostKept s (f a)) : KeepsHost s (s.nextOr k (o.map f)) :=
  keepsHost_nextOr fun t ht => by
    obtain ⟨a, ha, rfl⟩ := Option.map_eq_some_iff.mp ht
    exact h a ha

theorem keepsHost_skipIf (c : Bool) : KeepsHost s (s.skipIf c) := by
  rw [skipIf_eq_setPc]
  exact keepsHost_next (HostKept.refl s)

theorem keepsHost_skipIfKey (k : Byte) (wanted : Bool) : KeepsHost s (s.skipIfKey k wanted) := by
  unfold State.skipIfKey
  cases s.keyRead k with
  | some pressed => exact keepsHost_skipIf _
  | none =>
    obtain ⟨t, hraise, hfail⟩ := raise_eq s .keyIndexOutOfRange
    exact hraise ▸ keepsHost_next hfail.hostKept

theorem hostKept_of_push {t : State} {w : Word} (h : s.push w = some t) : HostKept s t := by
  obtain ⟨_, rfl⟩ := (push_eq_some_iff s t w).mp h
  exact HostKept.refl s

theorem hostKept_of_pop {p : Word × State} (h : s.pop = some p) : HostKept s p.2 := by
  obtain ⟨_, rfl⟩ := (pop_eq_some_iff s p).mp h
  exact HostKept.refl s

theorem hostKept_of_memWrite {t : State} {addr : Nat} {bs : List Byte} (h : s.memWrite addr bs = some t) :
    HostKept s t := by
  rw [memWrite_eq] at h
  obtain ⟨-, hstored⟩ := Option.ite_none_right_eq_some.mp h
  exact Option.some.inj hstored ▸ HostKept.refl s

theorem draw_hostKept (s : State) : HostKept s s.draw.2 := by
  obtain ⟨r, ds, hdraw, -⟩ := draw_eq s
  rw [hdraw]
  exact HostKept.refl s

end

/-- An instruction writes neither IR nor an input, nor the schedule, also where it fails. -/
theorem exec_keepsHost (i : Instr) (s : State) : KeepsHost s (exec i s) := by
  cases i with
  | cls | jp | jpV0 | ldImm | addImm | ldReg | orReg | andReg | xorReg | addReg | subReg | shr | subnReg | shl
  | ldI | ldF | ldVxDt | ldVxK | ldDtVx | ldStVx => exact keepsHost_next (HostKept.refl s)
  | seImm | sneImm | seReg | sneReg => exact keepsHost_skipIf _
  | skp | sknp => exact keepsHost_skipIfKey _ _
  | ret => exact keepsHost_nextOr_map fun _ => hostKept_of_pop
  | call nnn => exact keepsHost_nextOr_map fun _ => hostKept_of_push
  | rnd x kk => exact keepsHost_next (draw_hostKept s)
  | addI | drw | loadRegs => exact keepsHost_nextOr_map fun _ _ => HostKept.refl s
  | ldB | storeRegs => exact keepsHost_nextOr fun _ => hostKept_of_memWrite

/-! #### A step uses up one event, whatever the event is -/

/-- The events to come are the same in both states. -/
def ScheduleKept (s t : State) : Prop := t.agenda = s.agenda ∧ t.later = s.later

section
variable {s t : State}

theorem HostKept.scheduleKept (h : HostKept s t) : ScheduleKept s t := by
  obtain ⟨-, -, -, hagenda, hlater, -⟩ := h
  exact ⟨hagenda, hlater⟩

theorem tick_scheduleKept (s : State) : ScheduleKept s (tick s) := by
  unfold tick
  split <;> exact ⟨rfl, rfl⟩

theorem keyWaitPass_scheduleKept (s : State) : ScheduleKept s (keyWaitPass s) := by
  unfold keyWaitPass
  cases lowestKey s.keys <;> exact ⟨rfl, rfl⟩

/-- The agents act on a state whose schedule is past their event already, and none of them touches it. -/
theorem step_scheduleKept (h : step s = .next t) : ScheduleKept s.atPass t := by
  rcases step_next_cases h with ⟨-, -, -, -, rfl⟩ | ⟨w, -, -, rfl⟩ | ⟨w, i, u, -, -, hexec, rfl⟩ |
    ⟨-, -, -, rfl⟩ | ⟨-, rfl⟩ | ⟨k, -, rfl⟩ | ⟨-, rfl⟩ | ⟨rom, -, rfl⟩
  · exact ⟨rfl, rfl⟩
  · exact ⟨rfl, rfl⟩
  · split
    · exact ⟨rfl, rfl⟩
    · exact (exec_keepsHost i (s.atPass.fetched w) u hexec).scheduleKept
  · exact keyWaitPass_scheduleKept s.atPass
  · exact tick_scheduleKept s.atPass
  · exact ⟨rfl, rfl⟩
  · exact ⟨rfl, rfl⟩
  · exact boot_schedule s.atPass rom

theorem eventAt_of_step (h : step s = .next t) (j : Nat) : t.eventAt j = s.eventAt (j + 1) := by
  obtain ⟨hagenda, hlater⟩ := step_scheduleKept h
  rw [eventAt_succ, eventAt_congr hagenda hlater]

theorem eventAt_of_run {k : Nat} (h : core.run k s = .next t) (j : Nat) : t.eventAt j = s.eventAt (k + j) := by
  induction k generalizing s with
  | zero => rw [← Host.Outcome.next.inj h, Nat.zero_add]
  | succ k ih =>
    obtain ⟨u, hstep, hrun⟩ := (run_succ_iff k s t).mp h
    rw [ih hrun, eventAt_of_step hstep, Nat.add_right_comm]

end

/-! #### The listed events -/

section
variable (s : State)

theorem eventAt_add (k j : Nat) : s.eventAt (k + j) = (s.pastEvents k).eventAt j := by
  induction k generalizing s with
  | zero => rw [Nat.zero_add, pastEvents_zero]
  | succ k ih => rw [Nat.add_right_comm, eventAt_succ, ih, pastEvents_succ']

/-- As long as the agenda lasts, it is all that passing over events uses up. -/
theorem pastEvents_listed (k : Nat) (hk : k ≤ s.agenda.length) :
    (s.pastEvents k).agenda = s.agenda.drop k ∧ (s.pastEvents k).later = s.later := by
  induction k with
  | zero => exact ⟨rfl, rfl⟩
  | succ k ih =>
    obtain ⟨hagenda, hlater⟩ := ih (Nat.le_of_succ_le hk)
    rw [List.drop_eq_getElem_cons hk] at hagenda
    rw [pastEvents_succ, State.atPass_agenda, State.atPass_later, scheduleRest_cons hagenda]
    exact ⟨rfl, hlater⟩

theorem eventAt_listed (j : Nat) (h : j < s.agenda.length) : s.eventAt j = s.agenda[j] :=
  nextEvent_cons ((pastEvents_listed s j h.le).1.trans (List.drop_eq_getElem_cons h))

/-- After the agenda comes what comes later, from its beginning. -/
theorem pastEvents_agenda_length :
    (s.pastEvents s.agenda.length).agenda = [] ∧ (s.pastEvents s.agenda.length).later = s.later := by
  have h := pastEvents_listed s s.agenda.length le_rfl
  rwa [List.drop_length] at h

end

/-! #### What comes later: passes, a repeated list, the free schedule -/

section
variable {s : State} (hs : s.agenda = [])
include hs

theorem eventAt_passes (hl : s.later = .repeating []) (j : Nat) : s.eventAt j = .pass := by
  induction j generalizing s with
  | zero =>
    rw [eventAt_zero, nextEvent_nil hs, hl]
    rfl
  | succ j ih =>
    have hrest := scheduleRest_passes hs hl
    rw [eventAt_succ]
    exact ih (congrArg Prod.fst hrest) (congrArg Prod.snd hrest)

theorem eventAt_free {n : Nat} (hl : s.later = .free n) (j : Nat) : s.eventAt j = Config.freeEvent (n + j) := by
  induction j generalizing s n with
  | zero =>
    rw [eventAt_zero, nextEvent_nil hs, hl]
    rfl
  | succ j ih =>
    have hrest := scheduleRest_free hs hl
    rw [eventAt_succ, ih (congrArg Prod.fst hrest) (congrArg Prod.snd hrest), Nat.add_right_comm, Nat.add_assoc]

/-- A list that is repeated is the schedule that lists it once and repeats it then. -/
theorem eventAt_laid_out {es : List Event} (hes : 0 < es.length) (hl : s.later = .repeating es) (j : Nat) :
    s.eventAt j = { s with agenda := es }.eventAt j := by
  obtain ⟨e, rest, rfl⟩ := List.exists_cons_of_length_pos hes
  cases j with
  | zero =>
    rw [eventAt_zero, eventAt_zero, nextEvent_nil hs, hl]
    rfl
  | succ j =>
    have hrest := scheduleRest_repeating hs hl
    rw [eventAt_succ, eventAt_succ]
    exact eventAt_congr (congrArg Prod.fst hrest) ((congrArg Prod.snd hrest).trans hl.symm) j

/-- One round of the list, and then the same schedule again. -/
theorem eventAt_repeating {es : List Event} (hes : 0 < es.length) (hl : s.later = .repeating es) (j : Nat) :
    s.eventAt j = es[j % es.length]'(Nat.mod_lt j hes) := by
  induction j using Nat.strong_induction_on generalizing s with
  | _ j ih =>
    rw [eventAt_laid_out hs hes hl]
    rcases Nat.lt_or_ge j es.length with hj | hj
    · simp only [eventAt_listed { s with agenda := es } j hj, Nat.mod_eq_of_lt hj]
    · obtain ⟨m, rfl⟩ := Nat.exists_eq_add_of_le hj
      obtain ⟨hagenda, hlater⟩ := pastEvents_agenda_length { s with agenda := es }
      rw [eventAt_add, ih m (by omega) hagenda (hlater.trans hl)]
      simp only [Nat.add_mod_left]

end

/-- Settles O16: a step leaves the schedule past its own event, and the forms of schedule are read off one by one, each
from where the agenda has run out. -/
theorem aRunFollowsItsEndlessSchedule : Obligations.ARunFollowsItsEndlessSchedule := by
  unfold Obligations.ARunFollowsItsEndlessSchedule
  have hrest := pastEvents_agenda_length
  refine ⟨fun _ _ _ => eventAt_of_run, eventAt_listed, fun s hl j => ?_, fun s es hes hl j => ?_, fun s n hl j => ?_⟩
  · exact (eventAt_add s _ j).trans (eventAt_passes (hrest s).1 ((hrest s).2.trans hl) j)
  · exact (eventAt_add s _ j).trans (eventAt_repeating (hrest s).1 hes ((hrest s).2.trans hl) j)
  · exact (eventAt_add s _ j).trans (eventAt_free (hrest s).1 ((hrest s).2.trans hl) j)

end Sys2Proof.Machine
end

section
/-! PROOF. O15, ticks in a row (60_exceptions.md R159, R160, R162): a tick writes the two timers alone, so the schedule
moves on beside it as if it had not happened. -/

namespace Sys2Proof.Machine

/-- One tick lowers a timer by one, stopping at zero (R159). -/
theorem toNat_decayed (b : Byte) : (decayed b).toNat = b.toNat - 1 := by
  unfold decayed
  split
  · bv_omega
  · omega

section
variable (s : State)

theorem tick_of_not_halted (h : s.mode ≠ .halted) : tick s = (s.setDt (decayed s.dt)).setSt (decayed s.st) :=
  if_neg h

/-- Whatever a tick does, it does it to the timers (R162). -/
theorem tick_eq : tick s = { s with dt := (tick s).dt, st := (tick s).st } := by
  unfold tick
  split <;> rfl

theorem tick_mode : (tick s).mode = s.mode := by rw [tick_eq]

theorem tick_atPass : (tick s).atPass = tick s.atPass := by
  unfold tick
  rw [State.atPass_mode]
  split <;> rfl

theorem tick_pastEvents (k : Nat) : (tick s).pastEvents k = tick (s.pastEvents k) := by
  induction k with
  | zero => rfl
  | succ k ih => rw [pastEvents_succ, ih, tick_atPass, pastEvents_succ]

theorem tick_eventAt (k : Nat) : (tick s).eventAt k = s.eventAt k :=
  eventAt_congr (tick_scheduleKept s).1 (tick_scheduleKept s).2 k

theorem step_of_nextEvent_tick (h : s.nextEvent = .tick) : step s = .next (tick s.atPass) := by
  rw [step, cycleStep, h]
  rfl

end

/-- Settles O15, by induction on the number of ticks: the first one leaves a state whose schedule begins with the other
ones. -/
theorem ticksLowerBothTimersAndSaturate : Obligations.TicksLowerBothTimersAndSaturate := by
  unfold Obligations.TicksLowerBothTimersAndSaturate
  intro k
  induction k with
  | zero => exact fun s _ _ => ⟨s, rfl, rfl, rfl, rfl⟩
  | succ k ih =>
    intro s hmode hticks
    have hstep := step_of_nextEvent_tick s (hticks 0 k.succ_pos)
    have hticked := tick_of_not_halted s.atPass hmode
    have hrest : ∀ j < k, (tick s.atPass).eventAt j = .tick := fun j hj => by
      rw [tick_eventAt, ← eventAt_succ]
      exact hticks (j + 1) (Nat.succ_lt_succ hj)
    obtain ⟨t, hrun, hdt, hst, hframe⟩ := ih (tick s.atPass) ((tick_mode s.atPass).trans_ne hmode) hrest
    refine ⟨t, (run_succ_iff k s t).mpr ⟨_, hstep, hrun⟩, ?_, ?_, ?_⟩
    · rw [hdt, hticked, State.setSt_dt, State.setDt_dt, toNat_decayed, State.atPass_dt, Nat.sub_sub, Nat.add_comm]
    · rw [hst, hticked, State.setSt_st, toNat_decayed, State.atPass_st, Nat.sub_sub, Nat.add_comm]
    · rwa [tick_pastEvents, ← pastEvents_succ', tick_eq] at hframe

end Sys2Proof.Machine
end

section
/-! PROOF. O17, ticks that keep coming (60_exceptions.md R159 to R161, 70_reset_and_hazards.md R177 (b)): nothing but
`LD DT,Vx` raises DT, so every tick brings it nearer to zero for good. -/

namespace Sys2Proof.Machine

/-! #### Outcomes that leave both timers as they were -/

/-- Where the outcome `r` is a next state, both its timers are those of `s`. -/
def KeepsTimers (s : State) (r : Result) : Prop := ∀ t, r = .next t → TimersKept s t

section
variable {s : State}

theorem TimersKept.refl (s : State) : TimersKept s s := ⟨rfl, rfl⟩

theorem keepsTimers_next {t : State} (h : TimersKept s t) : KeepsTimers s (.next t) :=
  fun _ ht => Host.Outcome.next.inj ht ▸ h

theorem FailedWith.timersKept {k : FailureKind} {t : State} (h : FailedWith k s t) : TimersKept s t := by
  obtain ⟨-, -, -, -, -, -, htimers, -⟩ := h
  exact htimers

/-- An operation that may fail keeps the timers where its success does (60_exceptions.md R144). -/
theorem keepsTimers_nextOr {k : FailureKind} {o : Option State} (h : ∀ t, o = some t → TimersKept s t) :
    KeepsTimers s (s.nextOr k o) := fun t ht =>
  (nextOr_cases s t k o ht).elim (h t) fun hfail => hfail.2.timersKept

theorem keepsTimers_nextOr_map {α : Type} {k : FailureKind} {o : Option α} {f : α → State}
    (h : ∀ a, o = some a → TimersKept s (f a)) : KeepsTimers s (s.nextOr k (o.map f)) :=
  keepsTimers_nextOr fun t ht => by
    obtain ⟨a, ha, rfl⟩ := Option.map_eq_some_iff.mp ht
    exact h a ha

theorem keepsTimers_skipIf (c : Bool) : KeepsTimers s (s.skipIf c) := by
  rw [skipIf_eq_setPc]
  exact keepsTimers_next (TimersKept.refl s)

theorem keepsTimers_skipIfKey (k : Byte) (wanted : Bool) : KeepsTimers s (s.skipIfKey k wanted) := by
  unfold State.skipIfKey
  cases s.keyRead k with
  | some pressed => exact keepsTimers_skipIf _
  | none => exact keepsTimers_next (TimersKept.refl s)

theorem timersKept_of_push {t : State} {w : Word} (h : s.push w = some t) : TimersKept s t := by
  obtain ⟨_, rfl⟩ := (push_eq_some_iff s t w).mp h
  exact TimersKept.refl s

theorem timersKept_of_pop {p : Word × State} (h : s.pop = some p) : TimersKept s p.2 := by
  obtain ⟨_, rfl⟩ := (pop_eq_some_iff s p).mp h
  exact TimersKept.refl s

theorem timersKept_of_memWrite {t : State} {addr : Nat} {bs : List Byte} (h : s.memWrite addr bs = some t) :
    TimersKept s t := by
  rw [memWrite_eq] at h
  obtain ⟨-, hstored⟩ := Option.ite_none_right_eq_some.mp h
  exact Option.some.inj hstored ▸ TimersKept.refl s

theorem draw_timersKept (s : State) : TimersKept s s.draw.2 := by
  obtain ⟨r, ds, hdraw, -⟩ := draw_eq s
  rw [hdraw]
  exact TimersKept.refl s

end

/-! #### Every instruction -/

/-- `LD DT,Vx` and `LD ST,Vx`: the instructions that write a timer (45_keypad_timers.md R141, R142). -/
def IsTimerLoad (i : Instr) : Prop := (∃ x, i = .ldDtVx x) ∨ (∃ x, i = .ldStVx x)

/-- An instruction that is no timer load leaves both timers as they were, also where it fails. -/
theorem exec_keepsTimers (i : Instr) (s : State) : IsTimerLoad i ∨ KeepsTimers s (exec i s) := by
  cases i with
  | ldDtVx x => exact .inl (.inl ⟨x, rfl⟩)
  | ldStVx x => exact .inl (.inr ⟨x, rfl⟩)
  | cls | jp | jpV0 | ldImm | addImm | ldReg | orReg | andReg | xorReg | addReg | subReg | shr | subnReg | shl
  | ldI | ldF | ldVxDt | ldVxK => exact .inr (keepsTimers_next (TimersKept.refl s))
  | seImm | sneImm | seReg | sneReg => exact .inr (keepsTimers_skipIf _)
  | skp | sknp => exact .inr (keepsTimers_skipIfKey _ _)
  | ret => exact .inr (keepsTimers_nextOr_map fun _ => timersKept_of_pop)
  | call nnn => exact .inr (keepsTimers_nextOr_map fun _ => timersKept_of_push)
  | rnd x kk => exact .inr (keepsTimers_next (draw_timersKept s))
  | addI | drw | loadRegs => exact .inr (keepsTimers_nextOr_map fun _ _ => TimersKept.refl s)
  | ldB | storeRegs => exact .inr (keepsTimers_nextOr fun _ => timersKept_of_memWrite)

/-- Only `LD DT,Vx` writes DT: the other timer load writes ST alone. -/
theorem exec_dt_of_ne_ldDtVx {i : Instr} {s u : State} (hi : ∀ x, i ≠ .ldDtVx x) (h : exec i s = .next u) :
    u.dt = s.dt := by
  rcases exec_keepsTimers i s with (⟨x, rfl⟩ | ⟨x, rfl⟩) | hkeep
  · exact absurd rfl (hi x)
  · rw [exec_ldStVx_eq_setSt] at h
    rw [← Host.Outcome.next.inj h, State.setSt_dt]
  · exact (hkeep u h).1

/-! #### Every event: DT never rises unasked -/

section
variable (s : State)

theorem keyWaitPass_timersKept : TimersKept s (keyWaitPass s) := by
  unfold keyWaitPass
  cases lowestKey s.keys <;> exact ⟨rfl, rfl⟩

/-- A tick lowers DT, except in HALTED, where it leaves DT alone (R159, R162). -/
theorem tick_dt_le : (tick s).dt.toNat ≤ s.dt.toNat := by
  by_cases hm : s.mode = .halted
  · rw [tick, if_pos hm]
  · rw [tick_of_not_halted s hm, State.setSt_dt, State.setDt_dt, toNat_decayed]
    exact Nat.sub_le _ _

/-- Boot clears DT, also where the load fails (70_reset_and_hazards.md R167). -/
theorem boot_dt (rom : List Byte) : (s.boot rom).dt = 0x00#8 := by
  unfold State.boot State.loadProgram
  split <;> rfl

end

theorem step_dt_le {s t : State} (hstep : step s = .next t) (hload : ∀ x, ¬ s.Runs (.ldDtVx x)) :
    t.dt.toNat ≤ s.dt.toNat := by
  rcases step_next_cases hstep with ⟨-, -, -, -, rfl⟩ | ⟨w, -, -, rfl⟩ | ⟨w, i, u, hfetch, hdec, hexec, rfl⟩ |
    ⟨-, -, -, rfl⟩ | ⟨-, rfl⟩ | ⟨k, -, rfl⟩ | ⟨-, rfl⟩ | ⟨rom, -, rfl⟩
  · exact le_rfl
  · exact le_rfl
  · split
    · exact le_rfl
    · have hi : ∀ x, i ≠ .ldDtVx x := fun x hx => hload x ⟨w, hfetch, hx ▸ hdec⟩
      rw [exec_dt_of_ne_ldDtVx hi hexec, State.fetched_dt, State.atPass_dt]
  · rw [(keyWaitPass_timersKept s.atPass).1, State.atPass_dt]
  · exact tick_dt_le s.atPass
  · exact le_rfl
  · exact le_rfl
  · rw [boot_dt]
    exact Nat.zero_le _

/-! #### Runs that go on for ever and never load DT -/

/-- The run from `s` never stops, never is halted and never runs `LD DT,Vx`. -/
def NeverLoadsDt (s : State) : Prop :=
  ∀ k, ∃ t : State, core.run k s = .next t ∧ t.mode ≠ .halted ∧ ∀ x, ¬ t.Runs (.ldDtVx x)

section
variable {s t : State} {k : Nat}

theorem run_one_of_step (h : step s = .next t) : core.run 1 s = .next t := (run_succ_iff 0 s t).mpr ⟨t, h, rfl⟩

theorem NeverLoadsDt.now (h : NeverLoadsDt s) : s.mode ≠ .halted ∧ ∀ x, ¬ s.Runs (.ldDtVx x) := by
  obtain ⟨t, hrun, hnow⟩ := h 0
  rwa [← Host.Outcome.next.inj hrun] at hnow

/-- Such a run goes on as such a run from every state it comes to. -/
theorem NeverLoadsDt.after_run (h : NeverLoadsDt s) (hrun : core.run k s = .next t) : NeverLoadsDt t := by
  intro m
  obtain ⟨u, hu, hnow⟩ := h (k + m)
  obtain ⟨v, hv, hvu⟩ := (run_add_iff k m s u).mp hu
  obtain rfl : t = v := Host.Outcome.next.inj (hrun.symm.trans hv)
  exact ⟨u, hvu, hnow⟩

/-- Fairness speaks of what comes, so a run does not use it up. -/
theorem keepsComing_after_run {e : Event} (h : s.KeepsComing e) (hrun : core.run k s = .next t) : t.KeepsComing e := by
  intro n
  obtain ⟨m, hm, he⟩ := h (k + n)
  obtain ⟨j, rfl⟩ := Nat.exists_eq_add_of_le (Nat.le_of_add_right_le hm)
  exact ⟨j, Nat.le_of_add_le_add_left hm, (eventAt_of_run hrun j).trans he⟩

theorem NeverLoadsDt.run_dt_le (h : NeverLoadsDt s) (hrun : core.run k s = .next t) : t.dt.toNat ≤ s.dt.toNat := by
  induction k generalizing s with
  | zero => rw [Host.Outcome.next.inj hrun]
  | succ k ih =>
    obtain ⟨u, hstep, hrest⟩ := (run_succ_iff k s t).mp hrun
    have hu : NeverLoadsDt u := h.after_run (run_one_of_step hstep)
    exact (ih hu hrest).trans (step_dt_le hstep h.now.2)

/-- Up to the next tick DT does not rise, and the tick takes one off what is left of it. -/
theorem NeverLoadsDt.exists_run_dt_le_sub_one (h : NeverLoadsDt s) (hticks : s.KeepsComing .tick) :
    ∃ (k : Nat) (t : State), core.run k s = .next t ∧ t.dt.toNat ≤ s.dt.toNat - 1 := by
  obtain ⟨m, -, hm⟩ := hticks 0
  obtain ⟨u, hu, hmode, -⟩ := h m
  have hstep : step u = .next (tick u.atPass) := step_of_nextEvent_tick u ((eventAt_of_run hu 0).trans hm)
  have hdt : (tick u.atPass).dt.toNat = u.dt.toNat - 1 := by
    rw [tick_of_not_halted u.atPass hmode, State.setSt_dt, State.setDt_dt, toNat_decayed, State.atPass_dt]
  refine ⟨m + 1, tick u.atPass, (run_add_iff m 1 s _).mpr ⟨u, hu, run_one_of_step hstep⟩, ?_⟩
  rw [hdt]
  exact Nat.sub_le_sub_right (h.run_dt_le hu) 1

/-- By induction on a bound of DT: after one tick the run that is left has a smaller bound. -/
theorem NeverLoadsDt.exists_run_dt_zero (h : NeverLoadsDt s) (hticks : s.KeepsComing .tick) {n : Nat}
    (hn : s.dt.toNat ≤ n) : ∃ (k : Nat) (t : State), core.run k s = .next t ∧ t.dt = 0x00#8 := by
  induction n generalizing s with
  | zero => exact ⟨0, s, rfl, BitVec.eq_of_toNat_eq (Nat.le_zero.mp hn)⟩
  | succ n ih =>
    obtain ⟨k, u, hu, hlower⟩ := h.exists_run_dt_le_sub_one hticks
    obtain ⟨m, t, ht, hzero⟩ := ih (h.after_run hu) (keepsComing_after_run hticks hu) (by omega)
    exact ⟨k + m, t, (run_add_iff k m s t).mpr ⟨u, hu, ht⟩, hzero⟩

end

/-- Settles O17: DT, as a number, is the variant that every tick lowers and nothing in such a run raises. -/
theorem ticksThatKeepComingStopDt : Obligations.TicksThatKeepComingStopDt := by
  unfold Obligations.TicksThatKeepComingStopDt
  intro s hticks hrun
  exact NeverLoadsDt.exists_run_dt_zero hrun hticks le_rfl

end Sys2Proof.Machine
end

section
/-! PROOF. O1, O2, O3 and O5, the encoding (30_encoding.md R63 to R77). One equivalence carries them all: a word decodes
to an instruction exactly when it selects the instruction's row and the operands are read from the word's fields. -/

namespace Sys2Proof

/-! #### A word is made of its fields, or of all but those that R67 and R76 leave out (R63, R64) -/

section
variable {w : Word} {op n : BitVec 4} {kk : Byte} (hop : opField w = op)
include hop

theorem nibbles_of_fields (hn : nField w = n) : nibbles op (xField w) (yField w) n = w := by
  subst hop hn
  apply BitVec.eq_of_toNat_eq
  rw [toNat_nibbles, toNat_opField, val_xField, val_yField, toNat_nField]
  omega

theorem nibblesByte_of_fields (hkk : kkField w = kk) : nibblesByte op (xField w) kk = w := by
  subst hop hkk
  apply BitVec.eq_of_toNat_eq
  rw [toNat_nibblesByte, toNat_opField, val_xField, toNat_kkField]
  omega

theorem nibbleAddr_of_fields : nibbleAddr op (nnnField w) = w := by
  subst hop
  apply BitVec.eq_of_toNat_eq
  rw [toNat_nibbleAddr, toNat_opField, toNat_nnnField]
  omega

theorem nibbles_without_low_nibble : nibbles op (xField w) (yField w) 0x0#4 = w &&& 0xFFF0#16 := by
  rw [and_FFF0, hop]

theorem nibbles_without_yField (hn : nField w = n) : nibbles op (xField w) 0 n = w &&& 0xFF0F#16 := by
  rw [and_FF0F, hop, hn]

end

section
variable (w : Word)

/-! #### Selecting a row is a test of fields, one lemma per mask (R72) -/

variable (name : String) {p : Word}

theorem selects_maskFFFF : OpcodeRow.selects ⟨name, 0xFFFF#16, p⟩ w = true ↔ w = p := by
  rw [OpcodeRow.selects, beq_iff_eq]
  exact Eq.congr_left (BitVec.and_allOnes (x := w))

theorem selects_maskF000 (hp : p &&& 0xF000#16 = p) :
    OpcodeRow.selects ⟨name, 0xF000#16, p⟩ w = true ↔ opField w = opField p := by
  rw [OpcodeRow.selects, beq_iff_eq, ← hp, and_F000, and_F000]
  exact ⟨fun h => by simpa only [opField_nibbles] using congrArg opField h, fun h => by simp only [h, opField_nibbles]⟩

theorem selects_maskF00F (hp : p &&& 0xF00F#16 = p) :
    OpcodeRow.selects ⟨name, 0xF00F#16, p⟩ w = true ↔ opField w = opField p ∧ nField w = nField p := by
  rw [OpcodeRow.selects, beq_iff_eq, ← hp, and_F00F, and_F00F, opField_nibbles, nField_nibbles]
  refine ⟨fun h => ⟨?_, ?_⟩, fun ⟨hop, hn⟩ => by rw [hop, hn]⟩
  · simpa only [opField_nibbles] using congrArg opField h
  · simpa only [nField_nibbles] using congrArg nField h

theorem selects_maskF0FF (hp : p &&& 0xF0FF#16 = p) :
    OpcodeRow.selects ⟨name, 0xF0FF#16, p⟩ w = true ↔ opField w = opField p ∧ kkField w = kkField p := by
  rw [OpcodeRow.selects, beq_iff_eq, ← hp, and_F0FF, and_F0FF, opField_nibblesByte, kkField_nibblesByte]
  refine ⟨fun h => ⟨?_, ?_⟩, fun ⟨hop, hkk⟩ => by rw [hop, hkk]⟩
  · simpa only [opField_nibblesByte] using congrArg opField h
  · simpa only [kkField_nibblesByte] using congrArg kkField h

end

/-! #### Decoding is selecting the row and reading the fields -/

/-- The instruction of the row of `i` whose operands are the fields of `w`. -/
def Instr.withFields (i : Instr) (w : Word) : Instr :=
  match i with
  | .cls => .cls
  | .ret => .ret
  | .jp _ => .jp (nnnField w)
  | .call _ => .call (nnnField w)
  | .seImm _ _ => .seImm (xField w) (kkField w)
  | .sneImm _ _ => .sneImm (xField w) (kkField w)
  | .seReg _ _ => .seReg (xField w) (yField w)
  | .ldImm _ _ => .ldImm (xField w) (kkField w)
  | .addImm _ _ => .addImm (xField w) (kkField w)
  | .ldReg _ _ => .ldReg (xField w) (yField w)
  | .orReg _ _ => .orReg (xField w) (yField w)
  | .andReg _ _ => .andReg (xField w) (yField w)
  | .xorReg _ _ => .xorReg (xField w) (yField w)
  | .addReg _ _ => .addReg (xField w) (yField w)
  | .subReg _ _ => .subReg (xField w) (yField w)
  | .shr _ => .shr (xField w)
  | .subnReg _ _ => .subnReg (xField w) (yField w)
  | .shl _ => .shl (xField w)
  | .sneReg _ _ => .sneReg (xField w) (yField w)
  | .ldI _ => .ldI (nnnField w)
  | .jpV0 _ => .jpV0 (nnnField w)
  | .rnd _ _ => .rnd (xField w) (kkField w)
  | .drw _ _ _ => .drw (xField w) (yField w) (nField w).toNat
  | .skp _ => .skp (xField w)
  | .sknp _ => .sknp (xField w)
  | .ldVxDt _ => .ldVxDt (xField w)
  | .ldVxK _ => .ldVxK (xField w)
  | .ldDtVx _ => .ldDtVx (xField w)
  | .ldStVx _ => .ldStVx (xField w)
  | .addI _ => .addI (xField w)
  | .ldF _ => .ldF (xField w)
  | .ldB _ => .ldB (xField w)
  | .storeRegs _ => .storeRegs (xField w)
  | .loadRegs _ => .loadRegs (xField w)

/-- The fields of `w` that the row of `i` tests, with the values it asks for (the column `match` of R72). -/
def Instr.SelectedBy (i : Instr) (w : Word) : Prop :=
  match i with
  | .cls => w = 0x00E0#16
  | .ret => w = 0x00EE#16
  | .jp _ => opField w = 0x1#4
  | .call _ => opField w = 0x2#4
  | .seImm _ _ => opField w = 0x3#4
  | .sneImm _ _ => opField w = 0x4#4
  | .seReg _ _ => opField w = 0x5#4
  | .ldImm _ _ => opField w = 0x6#4
  | .addImm _ _ => opField w = 0x7#4
  | .ldReg _ _ => opField w = 0x8#4 ∧ nField w = 0x0#4
  | .orReg _ _ => opField w = 0x8#4 ∧ nField w = 0x1#4
  | .andReg _ _ => opField w = 0x8#4 ∧ nField w = 0x2#4
  | .xorReg _ _ => opField w = 0x8#4 ∧ nField w = 0x3#4
  | .addReg _ _ => opField w = 0x8#4 ∧ nField w = 0x4#4
  | .subReg _ _ => opField w = 0x8#4 ∧ nField w = 0x5#4
  | .shr _ => opField w = 0x8#4 ∧ nField w = 0x6#4
  | .subnReg _ _ => opField w = 0x8#4 ∧ nField w = 0x7#4
  | .shl _ => opField w = 0x8#4 ∧ nField w = 0xE#4
  | .sneReg _ _ => opField w = 0x9#4
  | .ldI _ => opField w = 0xA#4
  | .jpV0 _ => opField w = 0xB#4
  | .rnd _ _ => opField w = 0xC#4
  | .drw _ _ _ => opField w = 0xD#4
  | .skp _ => opField w = 0xE#4 ∧ kkField w = 0x9E#8
  | .sknp _ => opField w = 0xE#4 ∧ kkField w = 0xA1#8
  | .ldVxDt _ => opField w = 0xF#4 ∧ kkField w = 0x07#8
  | .ldVxK _ => opField w = 0xF#4 ∧ kkField w = 0x0A#8
  | .ldDtVx _ => opField w = 0xF#4 ∧ kkField w = 0x15#8
  | .ldStVx _ => opField w = 0xF#4 ∧ kkField w = 0x18#8
  | .addI _ => opField w = 0xF#4 ∧ kkField w = 0x1E#8
  | .ldF _ => opField w = 0xF#4 ∧ kkField w = 0x29#8
  | .ldB _ => opField w = 0xF#4 ∧ kkField w = 0x33#8
  | .storeRegs _ => opField w = 0xF#4 ∧ kkField w = 0x55#8
  | .loadRegs _ => opField w = 0xF#4 ∧ kkField w = 0x65#8

/-- The row of an instruction tests the fields that R72 lists for it; which ones, its mask says. -/
theorem opcodeRow_selects_iff (i : Instr) (w : Word) : (opcodeRow i).selects w = true ↔ i.SelectedBy w := by
  cases i with
  | cls | ret => exact selects_maskFFFF w _
  | jp | call | seImm | sneImm | seReg | ldImm | addImm | sneReg | ldI | jpV0 | rnd | drw =>
    exact selects_maskF000 w _ (by decide)
  | ldReg | orReg | andReg | xorReg | addReg | subReg | shr | subnReg | shl => exact selects_maskF00F w _ (by decide)
  | skp | sknp | ldVxDt | ldVxK | ldDtVx | ldStVx | addI | ldF | ldB | storeRegs | loadRegs =>
    exact selects_maskF0FF w _ (by decide)

/-- A word decodes to an instruction exactly when it selects the instruction's row and its fields are the operands: of
the 34 ways to decode, the constructor of `i` leaves one. -/
theorem decodeWord_eq_ok_iff (w : Word) (i : Instr) : decodeWord w = .ok i ↔ i.SelectedBy w ∧ i = i.withFields w := by
  rw [decodeWord_ok_iff]
  cases i <;>
    simp only [Instr.SelectedBy, Instr.withFields, reduceCtorEq, and_false, false_or, or_false, and_true, and_assoc]

/-! #### The round trip -/

/-- An encoded word has the fields that the row of its instruction tests (R72). -/
theorem encodeWord_selectedBy (i : Instr) : i.SelectedBy (encodeWord i) := by
  cases i with
  | cls | ret => rfl
  | jp | call | ldI | jpV0 => exact opField_nibbleAddr _ _
  | seImm | sneImm | ldImm | addImm | rnd => exact opField_nibblesByte _ _ _
  | seReg | sneReg | drw => exact opField_nibbles _ _ _ _
  | ldReg | orReg | andReg | xorReg | addReg | subReg | shr | subnReg | shl =>
    exact ⟨opField_nibbles _ _ _ _, nField_nibbles _ _ _ _⟩
  | skp | sknp | ldVxDt | ldVxK | ldDtVx | ldStVx | addI | ldF | ldB | storeRegs | loadRegs =>
    exact ⟨opField_nibblesByte _ _ _, kkField_nibblesByte _ _ _⟩

/-- The operands are read back from the encoded word; the one that can be too wide for its field is the number of rows
of `DRW` (R65). -/
theorem withFields_encodeWord (i : Instr) (hwf : i.WellFormed) : i.withFields (encodeWord i) = i := by
  cases i with
  | drw x y n =>
    have hn : n < 2 ^ 4 := of_decide_eq_true hwf
    simp only [Instr.withFields, encodeWord, xField_nibbles, yField_nibbles, nField_nibbles,
      BitVec.toNat_ofNat, Nat.mod_eq_of_lt hn]
  | _ => simp only [Instr.withFields, encodeWord, xField_nibbles, yField_nibbles, xField_nibblesByte,
      kkField_nibblesByte, nnnField_nibbleAddr]

theorem decodeWord_encodeWord (i : Instr) (hwf : i.WellFormed) : decodeWord (encodeWord i) = .ok i :=
  (decodeWord_eq_ok_iff _ _).mpr ⟨encodeWord_selectedBy i, (withFields_encodeWord i hwf).symm⟩

/-- Settles O1: the two bytes make up the encoded word again, and the word decodes to its instruction. -/
theorem decodeOfEncodeIsTheInstruction : Obligations.DecodeOfEncodeIsTheInstruction := by
  unfold Obligations.DecodeOfEncodeIsTheInstruction
  intro i rest hwf
  simp only [encode, List.cons_append, List.nil_append, decode, wordOfBytes_high_low, decodeWord_encodeWord i hwf]

/-! #### The decoder and the map -/

section
variable (i : Instr) (w : Word)

/-- A number of rows that is read from its 4-bit field fits it. -/
theorem withFields_wellFormed : (i.withFields w).WellFormed := by
  cases i with
  | drw => exact decide_eq_true (nField w).isLt
  | _ => rfl

/-- Reading the operands from a word stays in the row. -/
theorem opcodeRow_withFields : opcodeRow (i.withFields w) = opcodeRow i := by
  cases i <;> rfl

theorem selectedBy_withFields : (i.withFields w).SelectedBy w ↔ i.SelectedBy w := by
  rw [← opcodeRow_selects_iff, opcodeRow_withFields, opcodeRow_selects_iff]

theorem withFields_withFields : (i.withFields w).withFields w = i.withFields w := by
  cases i <;> rfl

/-- The map has a row for every instruction, operands aside. -/
theorem opcodeRow_mem_opcodeMap : opcodeRow i ∈ opcodeMap := by
  have hzero : opcodeRow (i.withFields 0) ∈ opcodeMap := by
    cases i <;> (simp only [Instr.withFields]; decide)
  rwa [opcodeRow_withFields] at hzero

theorem decodeWord_wellFormed {i : Instr} {w : Word} (h : decodeWord w = .ok i) : i.WellFormed := by
  obtain ⟨-, hi⟩ := (decodeWord_eq_ok_iff w i).mp h
  exact hi ▸ withFields_wellFormed i w

end

/-- Settles O2: both directions of `decodeWord_eq_ok_iff`, for the row of the instruction. -/
theorem decoderAgreesWithOpcodeMap : Obligations.DecoderAgreesWithOpcodeMap := by
  unfold Obligations.DecoderAgreesWithOpcodeMap
  refine ⟨fun w i h => ⟨decodeWord_wellFormed h, opcodeRow_mem_opcodeMap i, ?_⟩, fun w row hrow hsel => ?_⟩
  · exact (opcodeRow_selects_iff i w).mpr ((decodeWord_eq_ok_iff w i).mp h).1
  · obtain ⟨i, -, rfl⟩ := List.mem_map.mp hrow
    have hi : (i.withFields w).SelectedBy w :=
      (selectedBy_withFields i w).mpr ((opcodeRow_selects_iff i w).mp hsel)
    exact ⟨i.withFields w, (decodeWord_eq_ok_iff _ _).mpr ⟨hi, (withFields_withFields i w).symm⟩,
      opcodeRow_withFields i w⟩

/-! #### What decoding drops -/

/-- Settles O3: the row fixes the bits it tests and the operands are all the other bits, but for those that R67 and R76
leave out. -/
theorem decodeDropsOnlyIgnoredBits : Obligations.DecodeDropsOnlyIgnoredBits := by
  unfold Obligations.DecodeDropsOnlyIgnoredBits
  intro w i h
  obtain ⟨hsel, hi⟩ := (decodeWord_eq_ok_iff w i).mp h
  rw [hi]
  cases i with
  | cls | ret => exact hsel.symm
  | seReg | sneReg => exact nibbles_without_low_nibble hsel
  | shr | shl => exact nibbles_without_yField hsel.1 hsel.2
  | jp | call | ldI | jpV0 => exact nibbleAddr_of_fields hsel
  | seImm | sneImm | ldImm | addImm | rnd => exact nibblesByte_of_fields hsel rfl
  | drw => exact nibbles_of_fields hsel (by rw [BitVec.ofNat_toNat, BitVec.setWidth_eq])
  | ldReg | orReg | andReg | xorReg | addReg | subReg | subnReg => exact nibbles_of_fields hsel.1 hsel.2
  | skp | sknp | ldVxDt | ldVxK | ldDtVx | ldStVx | addI | ldF | ldB | storeRegs | loadRegs =>
    exact nibblesByte_of_fields hsel.1 hsel.2

/-! #### The illegal words -/

/-- The words that R73 lists: what is left of the four families that branch. -/
def IsIllegal (w : Word) : Prop :=
  (opField w = 0x0#4 ∧ nnnField w ≠ 0x0E0#12 ∧ nnnField w ≠ 0x0EE#12) ∨
  (opField w = 0x8#4 ∧ nField w ∈ [0x8#4, 0x9#4, 0xA#4, 0xB#4, 0xC#4, 0xD#4, 0xF#4]) ∨
  (opField w = 0xE#4 ∧ kkField w ∉ [0x9E#8, 0xA1#8]) ∨
  (opField w = 0xF#4 ∧ kkField w ∉ [0x07#8, 0x0A#8, 0x15#8, 0x18#8, 0x1E#8, 0x29#8, 0x33#8, 0x55#8, 0x65#8])

/-- A word that selects a row decodes, with the operands it carries. -/
theorem forall_decodeWord_ne_ok_iff (w : Word) : (∀ i, decodeWord w ≠ .ok i) ↔ ∀ i : Instr, ¬ i.SelectedBy w :=
  ⟨fun h i hi => h (i.withFields w)
    ((decodeWord_eq_ok_iff _ _).mpr ⟨(selectedBy_withFields i w).mpr hi, (withFields_withFields i w).symm⟩),
    fun h i hi => h i ((decodeWord_eq_ok_iff w i).mp hi).1⟩

/-- The twelve families without a selector take every word, so an unselected word lies in one of the other four. -/
theorem family_of_not_selected {w : Word} (h : ∀ i : Instr, ¬ i.SelectedBy w) :
    opField w = 0x0#4 ∨ opField w = 0x8#4 ∨ opField w = 0xE#4 ∨ opField w = 0xF#4 := by
  have branching : ∀ op : BitVec 4, op ≠ 0x1#4 → op ≠ 0x2#4 → op ≠ 0x3#4 → op ≠ 0x4#4 → op ≠ 0x5#4 → op ≠ 0x6#4 →
      op ≠ 0x7#4 → op ≠ 0x9#4 → op ≠ 0xA#4 → op ≠ 0xB#4 → op ≠ 0xC#4 → op ≠ 0xD#4 →
      op = 0x0#4 ∨ op = 0x8#4 ∨ op = 0xE#4 ∨ op = 0xF#4 := by decide
  exact branching _ (h (.jp 0)) (h (.call 0)) (h (.seImm 0 0)) (h (.sneImm 0 0)) (h (.seReg 0 0)) (h (.ldImm 0 0))
    (h (.addImm 0 0)) (h (.sneReg 0 0)) (h (.ldI 0)) (h (.jpV0 0)) (h (.rnd 0 0)) (h (.drw 0 0 0))

theorem isIllegal_of_not_selected {w : Word} (h : ∀ i : Instr, ¬ i.SelectedBy w) : IsIllegal w := by
  rcases family_of_not_selected h with hop | hop | hop | hop
  · exact .inl ⟨hop, fun hn => h .cls ((nibbleAddr_of_fields hop).symm.trans (by rw [hn]; rfl)),
      fun hn => h .ret ((nibbleAddr_of_fields hop).symm.trans (by rw [hn]; rfl))⟩
  · have unused : ∀ n : BitVec 4, n ≠ 0x0#4 → n ≠ 0x1#4 → n ≠ 0x2#4 → n ≠ 0x3#4 → n ≠ 0x4#4 → n ≠ 0x5#4 →
        n ≠ 0x6#4 → n ≠ 0x7#4 → n ≠ 0xE#4 → n ∈ [0x8#4, 0x9#4, 0xA#4, 0xB#4, 0xC#4, 0xD#4, 0xF#4] := by decide
    have low (i : Instr) {n : BitVec 4} (hi : opField w = 0x8#4 ∧ nField w = n → i.SelectedBy w) : nField w ≠ n :=
      fun hn => h i (hi ⟨hop, hn⟩)
    exact .inr (.inl ⟨hop, unused _ (low (.ldReg 0 0) id) (low (.orReg 0 0) id) (low (.andReg 0 0) id)
      (low (.xorReg 0 0) id) (low (.addReg 0 0) id) (low (.subReg 0 0) id) (low (.shr 0) id) (low (.subnReg 0 0) id)
      (low (.shl 0) id)⟩)
  · refine .inr (.inr (.inl ⟨hop, fun hmem => ?_⟩))
    simp only [List.mem_cons, List.not_mem_nil, or_false] at hmem
    rcases hmem with hkk | hkk
    · exact h (.skp 0) ⟨hop, hkk⟩
    · exact h (.sknp 0) ⟨hop, hkk⟩
  · refine .inr (.inr (.inr ⟨hop, fun hmem => ?_⟩))
    simp only [List.mem_cons, List.not_mem_nil, or_false] at hmem
    rcases hmem with hkk | hkk | hkk | hkk | hkk | hkk | hkk | hkk | hkk
    exacts [h (.ldVxDt 0) ⟨hop, hkk⟩, h (.ldVxK 0) ⟨hop, hkk⟩, h (.ldDtVx 0) ⟨hop, hkk⟩, h (.ldStVx 0) ⟨hop, hkk⟩,
      h (.addI 0) ⟨hop, hkk⟩, h (.ldF 0) ⟨hop, hkk⟩, h (.ldB 0) ⟨hop, hkk⟩, h (.storeRegs 0) ⟨hop, hkk⟩,
      h (.loadRegs 0) ⟨hop, hkk⟩]

/-- The fields that R73 lists are values that no row asks for. -/
theorem not_selected_of_isIllegal {w : Word} (h : IsIllegal w) (i : Instr) : ¬ i.SelectedBy w := by
  intro hi
  rcases h with ⟨hop, hcls, hret⟩ | ⟨hop, hn⟩ | ⟨hop, hkk⟩ | ⟨hop, hkk⟩
  · cases i with
    | cls => exact hcls (congrArg nnnField hi)
    | ret => exact hret (congrArg nnnField hi)
    | _ => simp [Instr.SelectedBy, hop] at hi
  all_goals
    cases i with
    | cls | ret => exact absurd (hop.symm.trans (congrArg opField hi)) (by decide)
    | _ => simp_all [Instr.SelectedBy]

theorem forall_decodeWord_ne_ok_iff_isIllegal (w : Word) : (∀ i, decodeWord w ≠ .ok i) ↔ IsIllegal w :=
  (forall_decodeWord_ne_ok_iff w).trans ⟨isIllegal_of_not_selected, not_selected_of_isIllegal⟩

/-- Settles O5: five fixed words, run through the decoder. -/
theorem sourceWordsDecode : Obligations.SourceWordsDecode := by
  unfold Obligations.SourceWordsDecode
  decide

end Sys2Proof
end

section
/-! PROOF. O46, O48, O50 and O13 on instructions. One equation says what every instruction answers: the failure that
60_exceptions.md R145 lists for it in the state, or else one total update of the state, its effect. -/

namespace Sys2Proof.Machine

/-! #### The operations that can fail, where they succeed -/

/-- The `n` bytes from `addr` up. -/
def State.bytesFrom (s : State) (addr n : Nat) : List Byte := (List.range n).map fun k => s.readByte (addr + k)

/-- `s` with bytes stored from `addr` up. -/
def State.withBytes (s : State) (addr : Nat) (bs : List Byte) : State :=
  s.setMem (Memory.writeBytes (bootByte s.font) s.mem addr bs)

/-- `s` with a return address on the call stack (meant for SP below 16). -/
def State.pushed (s : State) (w : Word) : State :=
  { s with stk := s.stk.setIfInBounds s.sp.val w, sp := Fin.ofNat 17 (s.sp.val + 1) }

/-- The return address on top of the call stack (meant for SP above 0). -/
def State.top (s : State) : Word := s.stk[s.sp.val - 1]'(by omega)

/-- `s` with SP one less; the slot keeps its value (D30). -/
def State.popped (s : State) : State := { s with sp := Fin.ofNat 17 (s.sp.val - 1) }

/-- `s` with pc past one more instruction where `c` holds (R93). -/
def State.skipped (s : State) (c : Bool) : State := s.setPc (if c then s.pc + 2#16 else s.pc)

/-- The byte that the random source delivers next (log 2). -/
def State.nextDraw (s : State) : Byte := s.draws.headD (Config.freeRnd s.drawn)

/-- `s` after the random source has delivered a byte. -/
def State.afterDraw (s : State) : State := { s with draws := s.draws.tail, drawn := s.drawn + 1 }

/-- The sprite of `n` rows at I, drawn at `(V[x], V[y])` (R128). -/
def State.drawing (s : State) (x y : Reg) (n : Nat) : Drawing :=
  drawSprite (s.reg x).toNat (s.reg y).toNat (s.bytesFrom s.dataAddr n) s.fb

/-- `s` with that sprite on the display and VF written (R131). -/
def State.withSprite (s : State) (x y : Reg) (n : Nat) : State :=
  (s.setFb (s.drawing x y n).fb).setReg VF (flagByte (s.drawing x y n).collision)

section
variable (s : State)

theorem push_of_lt (w : Word) (h : s.sp.val < 16) : s.push w = some (s.pushed w) := by
  refine (push_eq_some_iff s _ w).mpr ⟨h, ?_⟩
  have hsp : Fin.ofNat 17 (s.sp.val + 1) = ⟨s.sp.val + 1, by omega⟩ := Fin.ext (Nat.mod_eq_of_lt (by omega))
  have hstk : s.stk.setIfInBounds s.sp.val w = s.stk.set s.sp.val w h := by
    ext j hj
    rw [Vector.getElem_setIfInBounds, Vector.getElem_set]
  rw [State.pushed, hsp, hstk]

theorem pop_of_pos (h : 0 < s.sp.val) : s.pop = some (s.top, s.popped) := by
  refine (pop_eq_some_iff s _).mpr ⟨h, ?_⟩
  have hsp : Fin.ofNat 17 (s.sp.val - 1) = ⟨s.sp.val - 1, by omega⟩ := Fin.ext (Nat.mod_eq_of_lt (by omega))
  rw [State.popped, hsp]
  rfl

theorem draw_eq_nextDraw : s.draw = (s.nextDraw, s.afterDraw) := by
  unfold State.draw State.nextDraw State.afterDraw
  cases s.draws <;> rfl

end

/-! #### The effect of an instruction -/

/-- The state an instruction leaves where it does not fail. -/
def effect (i : Instr) (s : State) : State :=
  match i with
  | .cls => s.setFb blankFramebuffer
  | .ret => s.popped.setPc s.top
  | .jp nnn => s.setPc (addrOperand nnn)
  | .call nnn => (s.pushed s.pc).setPc (addrOperand nnn)
  | .seImm x kk => s.skipped (s.reg x == kk)
  | .sneImm x kk => s.skipped (s.reg x != kk)
  | .seReg x y => s.skipped (s.reg x == s.reg y)
  | .sneReg x y => s.skipped (s.reg x != s.reg y)
  | .ldImm x kk => s.setReg x kk
  | .addImm x kk => s.setReg x (addByte (s.reg x) kk)
  | .ldReg x y => s.setReg x (s.reg y)
  | .orReg x y => s.setReg x (s.reg x ||| s.reg y)
  | .andReg x y => s.setReg x (s.reg x &&& s.reg y)
  | .xorReg x y => s.setReg x (s.reg x ^^^ s.reg y)
  | .addReg x y => s.setFlagAndReg (carryFlag (s.reg x) (s.reg y)) x (addByte (s.reg x) (s.reg y))
  | .subReg x y => s.setFlagAndReg (greaterFlag (s.reg x) (s.reg y)) x (subByte (s.reg x) (s.reg y))
  | .shr x => s.setFlagAndReg (lowBitFlag (s.reg x)) x (s.reg x >>> 1)
  | .subnReg x y => s.setFlagAndReg (greaterFlag (s.reg y) (s.reg x)) x (subByte (s.reg y) (s.reg x))
  | .shl x => s.setFlagAndReg (highBitFlag (s.reg x)) x (s.reg x <<< 1)
  | .ldI nnn => s.setIdx (addrOperand nnn)
  | .jpV0 nnn => s.setPc (byteOperand (s.reg 0) + addrOperand nnn)
  | .rnd x kk => s.afterDraw.setReg x (s.nextDraw &&& kk)
  | .drw x y n => s.withSprite x y n
  | .skp x => s.skipped (s.keys.getLsbD (s.reg x).toNat == true)
  | .sknp x => s.skipped (s.keys.getLsbD (s.reg x).toNat == false)
  | .ldVxDt x => s.setReg x s.dt
  | .ldVxK x => s.awaitKeyInto x
  | .ldDtVx x => s.setDt (s.reg x)
  | .ldStVx x => s.setSt (s.reg x)
  | .addI x => s.setIdx (BitVec.ofNat 16 (s.idx.toNat + (s.reg x).toNat))
  | .ldF x => s.setIdx (glyphAddr (s.reg x))
  | .ldB x => s.withBytes s.dataAddr (bcdDigits (s.reg x))
  | .storeRegs x => s.withBytes s.dataAddr (s.regsUpTo x)
  | .loadRegs x => s.loadRegs (s.bytesFrom s.dataAddr (x.val + 1))

section
variable (s : State)

/-- An operation that fails exactly under `c` answers what the list of failures says under `c`. -/
theorem nextOr_eq_elim {k : FailureKind} {o : Option State} {t : State} {c : Prop} [Decidable c]
    (hfail : c → o = none) (hok : ¬ c → o = some t) :
    s.nextOr k o = (if c then some k else none).elim (.next t) s.raise := by
  split
  · rw [hfail ‹c›]; rfl
  · rw [hok ‹¬ c›]; rfl

theorem nextOr_map_eq_elim {α : Type} {k : FailureKind} {o : Option α} {a : α} {f : α → State} {c : Prop} [Decidable c]
    (hfail : c → o = none) (hok : ¬ c → o = some a) :
    s.nextOr k (o.map f) = (if c then some k else none).elim (.next (f a)) s.raise :=
  nextOr_eq_elim s (fun h => by rw [hfail h, Option.map_none]) (fun h => by rw [hok h, Option.map_some])

theorem skipIfKey_eq_elim (k : Byte) (wanted : Bool) :
    s.skipIfKey k wanted = (if k.toNat > 15 then some FailureKind.keyIndexOutOfRange else none).elim
      (.next (s.skipped (s.keys.getLsbD k.toNat == wanted))) s.raise := by
  unfold State.skipIfKey
  rw [keyRead_eq]
  by_cases hk : k.toNat > 15
  · simp only [hk, if_true, Option.elim_some]
  · simp only [hk, if_false, Option.elim_none, skipIf_eq_setPc, State.skipped]

/-- Every instruction answers its listed failure, or its effect. -/
theorem exec_eq (i : Instr) : exec i s = (instrFailure i s).elim (.next (effect i s)) s.raise := by
  cases i with
  | cls | jp | jpV0 | ldImm | addImm | ldReg | orReg | andReg | xorReg | addReg | subReg | shr | subnReg | shl | ldI
  | ldF | ldVxDt | ldVxK | ldDtVx | ldStVx => rfl
  | seImm | sneImm | seReg | sneReg => exact skipIf_eq_setPc s _
  | skp | sknp => exact skipIfKey_eq_elim s _ _
  | rnd x kk =>
    change Host.Outcome.next (s.draw.2.setReg x (s.draw.1 &&& kk)) = _
    rw [draw_eq_nextDraw]
    rfl
  | ret => exact nextOr_map_eq_elim s (pop_eq_none_iff s).mpr (fun h => pop_of_pos s (Nat.pos_of_ne_zero h))
  | call nnn => exact nextOr_map_eq_elim s (push_eq_none_iff s s.pc).mpr (fun h => push_of_lt s s.pc (by omega))
  | addI x => exact nextOr_map_eq_elim s (fun h => if_pos h) (fun h => if_neg h)
  | drw x y n =>
    exact nextOr_map_eq_elim s (fun h => memRead_of_not_fits s h.1 h.2)
      (fun h => memRead_of_fits s (by unfold State.dataAddr; omega))
  | loadRegs x =>
    exact nextOr_map_eq_elim s (fun h => memRead_of_not_fits s (Nat.le_add_left 1 x.val) h)
      (fun h => memRead_of_fits s (.inr (Nat.le_of_not_lt h)))
  | ldB x =>
    exact nextOr_eq_elim s (fun h => memWrite_of_not_fits s (Nat.le_add_left 1 2) h)
      (fun h => memWrite_of_fits s (.inr (Nat.le_of_not_lt h)))
  | storeRegs x =>
    refine nextOr_eq_elim s (fun h => memWrite_of_not_fits s ?_ ?_) (fun h => memWrite_of_fits s (.inr ?_)) <;>
      simp only [length_regsUpTo, State.dataAddr] <;> omega

variable {s} {i : Instr} {t : State} {k : FailureKind}

theorem exec_of_no_failure (h : instrFailure i s = none) : exec i s = .next (effect i s) := by
  rw [exec_eq, h]
  rfl

theorem exec_of_failure (h : instrFailure i s = some k) : exec i s = s.raise k := by
  rw [exec_eq, h]
  rfl

theorem exec_failedWith (h : instrFailure i s = some k) : ∃ t, exec i s = .next t ∧ FailedWith k s t := by
  rw [exec_of_failure h]
  exact raise_eq s k

/-- Everything an instruction that answers a next state can have done. -/
theorem exec_next_cases (h : exec i s = .next t) :
    (instrFailure i s = none ∧ t = effect i s) ∨ (∃ k, instrFailure i s = some k ∧ FailedWith k s t) := by
  cases hf : instrFailure i s with
  | none =>
    rw [exec_of_no_failure hf] at h
    exact .inl ⟨rfl, (Host.Outcome.next.inj h).symm⟩
  | some k =>
    obtain ⟨u, hu, hfail⟩ := exec_failedWith hf
    rw [hu] at h
    exact .inr ⟨k, rfl, Host.Outcome.next.inj h ▸ hfail⟩

end

/-- Settles O48: an instruction answers its effect or its failure, and both are next states. -/
theorem everyInstructionAnswersANextState : Obligations.EveryInstructionAnswersANextState := by
  unfold Obligations.EveryInstructionAnswersANextState
  intro i s
  cases hf : instrFailure i s with
  | none => exact ⟨_, exec_of_no_failure hf⟩
  | some k => exact ⟨_, exec_of_failure hf⟩

/-! #### What no effect does -/

section
variable (i : Instr) (s : State)

/-- FAULT is written by failures alone (R144). -/
theorem effect_fault : (effect i s).fault = s.fault := by
  cases i <;> rfl

/-- `LD Vx,K` is the one instruction that writes MODE without failing (10_state.md R24). -/
theorem effect_mode : (effect i s).mode = s.mode ∨ ∃ x, i = .ldVxK x := by
  cases i with
  | ldVxK x => exact .inr ⟨x, rfl⟩
  | _ => exact .inl rfl

theorem effect_not_halted (h : s.mode ≠ .halted) : (effect i s).mode ≠ .halted := by
  rcases effect_mode i s with hmode | ⟨x, rfl⟩
  · rwa [hmode]
  · exact fun hawait => by cases hawait

end

/-- Settles O46: in a machine that is not halted an effect is not HALTED, so HALTED tells the listed failure from the
effect. -/
theorem instructionsFailExactlyAsListed : Obligations.InstructionsFailExactlyAsListed := by
  unfold Obligations.InstructionsFailExactlyAsListed
  intro i s t hmode h
  rcases exec_next_cases h with ⟨hnone, rfl⟩ | ⟨k, hsome, hfail⟩
  · rw [hnone]
    exact ⟨by simpa using effect_not_halted i s hmode, fun k hk => by cases hk⟩
  · rw [hsome]
    obtain ⟨hhalted, -⟩ := id hfail
    exact ⟨by simpa using hhalted, fun j hj => Option.some.inj hj ▸ hfail⟩

/-! #### General registers -/

section
variable (s : State)

@[simp] theorem length_bytesFrom (addr n : Nat) : (s.bytesFrom addr n).length = n := by
  rw [State.bytesFrom, List.length_map, List.length_range]

@[simp] theorem getElem_bytesFrom (addr n k : Nat) (h : k < (s.bytesFrom addr n).length) :
    (s.bytesFrom addr n)[k] = s.readByte (addr + k) := by
  simp only [State.bytesFrom, List.getElem_map, List.getElem_range]

theorem reg_setFlagAndReg_of_not_mem {r x : Reg} (f b : Byte) (h : r ∉ [x, VF]) :
    (s.setFlagAndReg f x b).reg r = s.reg r := by
  rw [List.mem_pair, not_or] at h
  rw [reg_setFlagAndReg, if_neg h.1, if_neg h.2]

theorem FailedWith.regsKept {s t : State} {k : FailureKind} (h : FailedWith k s t) : RegsKeptBut [] s t := by
  obtain ⟨-, -, -, hregs, -⟩ := h
  exact hregs

theorem effect_regsKept (i : Instr) : RegsKeptBut (regsWritten i) s (effect i s) := by
  intro r hr
  cases i with
  | ldImm | addImm | ldReg | orReg | andReg | xorReg | rnd | ldVxDt | drw =>
    exact reg_setReg_ne _ _ (List.ne_of_not_mem_cons hr)
  | addReg | subReg | shr | subnReg | shl => exact reg_setFlagAndReg_of_not_mem s _ _ hr
  | loadRegs x =>
    have hx : ¬ r.val ≤ x.val := by simpa [regsWritten] using hr
    rw [effect, reg_loadRegs, dif_neg (by rw [length_bytesFrom]; omega)]
  | cls | ret | jp | call | seImm | sneImm | seReg | sneReg | ldI | jpV0 | skp | sknp | ldVxK | ldDtVx | ldStVx | addI
  | ldF | ldB | storeRegs => rfl

end

/-- Settles O50: an effect writes the registers listed, a failure none. -/
theorem registersChangeOnlyAsDestinations : Obligations.RegistersChangeOnlyAsDestinations := by
  unfold Obligations.RegistersChangeOnlyAsDestinations
  intro i s t h
  rcases exec_next_cases h with ⟨-, rfl⟩ | ⟨k, -, hfail⟩
  · exact effect_regsKept s i
  · exact fun r _ => hfail.regsKept r List.not_mem_nil

/-! #### The quit flag -/

/-- Neither the failures nor the effects look at quit or write it (40_cycle.md R88). -/
theorem exec_setQuit (i : Instr) (s : State) (q : Bool) :
    exec i { s with quit := q } = mapNext (fun t => { t with quit := q }) (exec i s) := by
  have hfail : instrFailure i { s with quit := q } = instrFailure i s := by cases i <;> rfl
  have heffect : effect i { s with quit := q } = { effect i s with quit := q } := by cases i <;> rfl
  rw [exec_eq, exec_eq, hfail, heffect]
  cases instrFailure i s <;> rfl

end Sys2Proof.Machine
end

section
/-! PROOF. O20, O22 to O24, O43 and O44, control transfer and keypad (41_control.md R94, R96, R101;
45_keypad_timers.md R136 to R138): each effect is one write of pc, of the stack with pc, or of MODE with KREG. -/

namespace Sys2Proof.Machine

/-! #### Jumps and skips -/

/-- Settles O20: the sum of a byte and a 12-bit address fits 16 bits, so nothing is lost. -/
theorem jumpThroughV0IsUnmasked : Obligations.JumpThroughV0IsUnmasked := by
  unfold Obligations.JumpThroughV0IsUnmasked
  intro nnn s
  refine ⟨_, exec_of_no_failure rfl, ?_, allButPcKept_setPc s _⟩
  have hbyte := toNat_byteOperand (s.reg 0)
  have haddr := toNat_addrOperand nnn
  rw [effect, State.setPc_pc, BitVec.toNat_add]
  omega

/-- A skip whose condition decides `p` adds 2 to pc exactly when `p` holds (R93). -/
theorem skipped_pc (s : State) {c : Bool} {p : Prop} [Decidable p] (hc : c = true ↔ p) :
    (s.skipped c).pc = if p then s.pc + 2#16 else s.pc := by
  simp only [State.skipped, State.setPc_pc, hc]

/-- Settles O43: above 15 there is no key to read; up to 15 the skip is taken or not by the state of the key. -/
theorem keySkips : Obligations.KeySkips := by
  unfold Obligations.KeySkips
  intro x s
  refine ⟨fun hle => ?_, fun hgt => ⟨exec_failedWith (if_pos hgt), exec_failedWith (if_pos hgt)⟩⟩
  have hno : ¬ (s.reg x).toNat > 15 := Nat.not_lt.mpr hle
  refine ⟨⟨_, exec_of_no_failure (if_neg hno), skipped_pc s beq_iff_eq, allButPcKept_setPc s _⟩,
    ⟨_, exec_of_no_failure (if_neg hno), ?_, allButPcKept_setPc s _⟩⟩
  rw [effect, skipped_pc s (p := ¬ s.keys.getLsbD (s.reg x).toNat = true) (by rw [beq_iff_eq, Bool.not_eq_true]),
    ite_not]

/-! #### The call stack -/

section
variable (s : State)

theorem pushed_sp (w : Word) (h : s.sp.val < 16) : (s.pushed w).sp.val = s.sp.val + 1 :=
  Nat.mod_eq_of_lt (by omega)

theorem pushed_stk (w : Word) (k : Fin 16) :
    (s.pushed w).stk[k] = if k.val = s.sp.val then w else s.stk[k] := by
  simp only [State.pushed, Fin.getElem_fin, Vector.getElem_setIfInBounds, eq_comm (a := k.val)]

theorem popped_sp : s.popped.sp.val = s.sp.val - 1 :=
  Nat.mod_eq_of_lt (by omega)

theorem top_eq (k : Fin 16) (h : s.sp.val = k.val + 1) : s.top = s.stk[k] := by
  simp only [State.top, h, Nat.add_sub_cancel, Fin.getElem_fin]

/-- Replacing the stack and pc leaves every other component alone. -/
theorem allButStackAndPcKept_of_push (w a : Word) : AllButStackAndPcKept s ((s.pushed w).setPc a) :=
  ⟨fun _ _ => rfl, rfl, ⟨rfl, rfl⟩, fun _ => rfl, fun _ _ => rfl, ⟨rfl, rfl, rfl⟩,
    ⟨rfl, rfl, rfl, rfl, rfl, rfl⟩, ⟨rfl, rfl⟩⟩

theorem allButStackAndPcKept_of_pop (a : Word) : AllButStackAndPcKept s (s.popped.setPc a) :=
  ⟨fun _ _ => rfl, rfl, ⟨rfl, rfl⟩, fun _ => rfl, fun _ _ => rfl, ⟨rfl, rfl, rfl⟩,
    ⟨rfl, rfl, rfl, rfl, rfl, rfl⟩, ⟨rfl, rfl⟩⟩

end

/-- Settles O22: a push and a jump, or the overflow. -/
theorem callPushesAndJumps : Obligations.CallPushesAndJumps := by
  unfold Obligations.CallPushesAndJumps
  intro nnn s
  refine ⟨fun hlt => ?_, fun hfull => exec_failedWith (if_pos hfull)⟩
  exact ⟨_, exec_of_no_failure (if_neg hlt.ne), pushed_sp s s.pc hlt, toNat_addrOperand nnn, pushed_stk s s.pc,
    allButStackAndPcKept_of_push s s.pc _⟩

/-- Settles O23: a pop into pc, or the underflow. -/
theorem retPopsIntoPc : Obligations.RetPopsIntoPc := by
  unfold Obligations.RetPopsIntoPc
  intro s
  refine ⟨fun k hk => ?_, fun hempty => exec_failedWith (if_pos hempty)⟩
  exact ⟨_, exec_of_no_failure (if_neg (by omega)), (popped_sp s).trans (by omega), top_eq s k hk, rfl,
    allButStackAndPcKept_of_pop s _⟩

/-- Settles O24: the slot that the call wrote is the one the return reads, since SP stands one above it. -/
theorem callThenRetReturns : Obligations.CallThenRetReturns := by
  unfold Obligations.CallThenRetReturns
  intro nnn s t u hlt hcall husp hustk
  obtain ⟨t', hcall', htsp, -, htstk, -⟩ := (callPushesAndJumps nnn s).1 hlt
  obtain rfl : t' = t := Host.Outcome.next.inj (hcall'.symm.trans hcall)
  have hsp : u.sp.val = s.sp.val + 1 := husp ▸ htsp
  obtain ⟨r, hret, hrsp, hrpc, -, hframe⟩ := (retPopsIntoPc u).1 ⟨s.sp.val, hlt⟩ hsp
  refine ⟨r, hret, ?_, Fin.ext hrsp, hframe⟩
  rw [hrpc, hustk, htstk, if_pos rfl]

/-! #### The key wait -/

/-- Settles O44: the effect writes MODE and KREG alone. -/
theorem waitForKeyEntersAwaitKey : Obligations.WaitForKeyEntersAwaitKey := by
  unfold Obligations.WaitForKeyEntersAwaitKey
  intro x s
  exact ⟨_, exec_of_no_failure rfl, State.awaitKeyInto_mode s x, State.awaitKeyInto_kreg s x,
    State.awaitKeyInto_pc s x, fun r _ => State.awaitKeyInto_reg s x r, State.awaitKeyInto_idx s x, ⟨rfl, rfl⟩,
    ⟨rfl, rfl⟩, State.awaitKeyInto_readByte s x, State.awaitKeyInto_readOut s x, State.awaitKeyInto_fault s x,
    ⟨rfl, rfl, rfl, rfl, rfl, rfl⟩, ⟨rfl, rfl⟩⟩

end Sys2Proof.Machine
end

section
/-! PROOF. O27 to O31, the ALU (42_alu.md R107 to R115): a write of the destination, with a flag before it where the
instruction writes one. -/

namespace Sys2Proof.Machine

/-! #### Bitwise operations -/

/-- An instruction whose effect is one write of a register leaves the byte there, and changes nothing else. -/
theorem exec_setReg (s : State) (x : Reg) {b : Byte} {i : Instr} (hf : instrFailure i s = none)
    (he : effect i s = s.setReg x b) :
    ∃ t, exec i s = .next t ∧ t.reg x = b ∧ OnlyRegsWritten [x] s t ∧ DrawsKept s t := by
  rw [exec_of_no_failure hf, he]
  exact next_setReg_loads s x b

/-- Settles O27: the destination takes the bitwise result, and no flag is written. -/
theorem bitwiseOperations : Obligations.BitwiseOperations := by
  unfold Obligations.BitwiseOperations
  intro x y s
  refine ⟨?_, ?_, ?_⟩
  · obtain ⟨t, ht, hx, hframe⟩ := exec_setReg (i := .orReg x y) s x rfl rfl
    exact ⟨t, ht, fun k _ => hx ▸ BitVec.getLsbD_or, hframe⟩
  · obtain ⟨t, ht, hx, hframe⟩ := exec_setReg (i := .andReg x y) s x rfl rfl
    exact ⟨t, ht, fun k _ => hx ▸ BitVec.getLsbD_and, hframe⟩
  · obtain ⟨t, ht, hx, hframe⟩ := exec_setReg (i := .xorReg x y) s x rfl rfl
    exact ⟨t, ht, fun k _ => hx ▸ BitVec.getLsbD_xor, hframe⟩

/-! #### A flag and a result (R116) -/

section
variable (s : State) (x : Reg) (f b : Byte)

theorem reg_setFlagAndReg_dest : (s.setFlagAndReg f x b).reg x = b := by
  rw [reg_setFlagAndReg, if_pos rfl]

theorem reg_setFlagAndReg_flag (h : x ≠ VF) : (s.setFlagAndReg f x b).reg VF = f := by
  rw [reg_setFlagAndReg, if_neg h.symm, if_pos rfl]

/-- A flag and a result leave every other register, and all that lies outside the registers, alone. -/
theorem onlyRegsWritten_setFlagAndReg : OnlyRegsWritten [x, VF] s (s.setFlagAndReg f x b) :=
  ⟨fun _ => reg_setFlagAndReg_of_not_mem s f b, rfl, rfl, ⟨rfl, rfl⟩, ⟨rfl, rfl⟩, fun _ => rfl,
    fun _ _ => rfl, ⟨rfl, rfl, rfl⟩, ⟨rfl, rfl, rfl, rfl, rfl, rfl⟩⟩

/-- An instruction whose effect is a flag and a result leaves both where R116 says, and changes nothing else. -/
theorem exec_setFlagAndReg {i : Instr} (hf : instrFailure i s = none) (he : effect i s = s.setFlagAndReg f x b) :
    ∃ t, exec i s = .next t ∧ t.reg x = b ∧ (x ≠ VF → t.reg VF = f) ∧ OnlyRegsWritten [x, VF] s t ∧ DrawsKept s t :=
  ⟨_, exec_of_no_failure hf, he ▸ reg_setFlagAndReg_dest s x f b, he ▸ reg_setFlagAndReg_flag s x f b,
    he ▸ onlyRegsWritten_setFlagAndReg s x f b, he ▸ ⟨rfl, rfl⟩⟩

end

/-- Settles O28: the sum with its carry. -/
theorem addRegistersSetsCarry : Obligations.AddRegistersSetsCarry := by
  unfold Obligations.AddRegistersSetsCarry
  intro x y s
  obtain ⟨t, ht, hx, hflag, hframe⟩ := exec_setFlagAndReg (i := .addReg x y) s x _ _ rfl rfl
  exact ⟨t, ht, hx ▸ toNat_addByte _ _, fun h => (hflag h).trans (flagByte_decide _), hframe⟩

/-- A subtraction with its strict flag, whichever register the minuend is (R111, R113). -/
theorem exec_subtraction (s : State) (x : Reg) (a b : Byte) {i : Instr} (hf : instrFailure i s = none)
    (he : effect i s = s.setFlagAndReg (greaterFlag a b) x (subByte a b)) :
    ∃ t, exec i s = .next t ∧ ((t.reg x).toNat : Int) = (a.toNat - b.toNat : Int) % 256 ∧
      (x ≠ VF → t.reg VF = if a.toNat > b.toNat then 1#8 else 0#8) ∧ OnlyRegsWritten [x, VF] s t ∧ DrawsKept s t := by
  obtain ⟨t, ht, hx, hflag, hframe⟩ := exec_setFlagAndReg s x _ _ hf he
  exact ⟨t, ht, hx ▸ toNat_subByte a b, fun h => (hflag h).trans (flagByte_decide _), hframe⟩

/-- Settles O29: the two subtractions differ in which operand is the minuend. -/
theorem subtractionsSetStrictFlag : Obligations.SubtractionsSetStrictFlag := by
  unfold Obligations.SubtractionsSetStrictFlag
  intro x y s
  exact ⟨exec_subtraction s x _ _ rfl rfl, exec_subtraction s x _ _ rfl rfl⟩

/-- Settles O30: a shift by one halves or doubles, and the flag is the bit that leaves the byte. -/
theorem shiftsByOneSetTheBitShiftedOut : Obligations.ShiftsByOneSetTheBitShiftedOut := by
  unfold Obligations.ShiftsByOneSetTheBitShiftedOut
  intro x s
  constructor
  · obtain ⟨t, ht, hx, hflag, hframe⟩ := exec_setFlagAndReg (i := .shr x) s x _ _ rfl rfl
    refine ⟨t, ht, ?_, fun h => (hflag h) ▸ toNat_lowBitFlag _, hframe⟩
    rw [hx, BitVec.toNat_ushiftRight, Nat.shiftRight_eq_div_pow, Nat.pow_one]
  · obtain ⟨t, ht, hx, hflag, hframe⟩ := exec_setFlagAndReg (i := .shl x) s x _ _ rfl rfl
    refine ⟨t, ht, ?_, fun h => (hflag h) ▸ toNat_highBitFlag _, hframe⟩
    rw [hx, BitVec.toNat_shiftLeft, Nat.shiftLeft_eq, Nat.pow_one, Nat.mul_comm]

/-! #### The random byte -/

/-- What passes a mask has no bit outside it. -/
theorem and_mask_and_not_mask (r kk : Byte) : (r &&& kk) &&& ~~~kk = 0#8 := by
  rw [BitVec.and_assoc, BitVec.and_not_self]
  exact BitVec.and_zero

theorem nextDraw_cons {s : State} {b : Byte} {rest : List Byte} (h : s.draws = b :: rest) :
    s.nextDraw = b ∧ s.afterDraw.draws = rest := by
  simp only [State.nextDraw, State.afterDraw, h, List.headD_cons, List.tail_cons, and_self]

theorem nextDraw_nil {s : State} (h : s.draws = []) :
    s.nextDraw = Config.freeRnd s.drawn ∧ s.afterDraw.draws = [] := by
  simp only [State.nextDraw, State.afterDraw, h, List.headD_nil, List.tail_nil, and_self]

/-- Settles O31: the byte drawn is the head of the supply, or the free value where the supply is empty. -/
theorem randomByteUnderMask : Obligations.RandomByteUnderMask := by
  unfold Obligations.RandomByteUnderMask
  intro x kk s
  refine ⟨s.nextDraw, _, exec_of_no_failure rfl, ?_, ?_, onlyRegsWritten_setReg s.afterDraw x _, rfl,
    fun _ _ => nextDraw_cons, nextDraw_nil⟩
  · exact reg_setReg_same _ _ _
  · rw [effect, reg_setReg_same]
    exact and_mask_and_not_mask _ _

end Sys2Proof.Machine
end

section
/-! PROOF. O33 to O38, the index register and memory (43_index_memory.md R120 to R124): writes of I, and the accesses
through I, which lie in memory or fail as a whole. -/

namespace Sys2Proof.Machine

/-! #### Writes of I -/

/-- Settles O33: the glyph address of a whole byte fits 16 bits. -/
theorem loadGlyphAddress : Obligations.LoadGlyphAddress := by
  unfold Obligations.LoadGlyphAddress
  intro x s
  exact ⟨_, exec_of_no_failure rfl, toNat_glyphAddr _, allButIdxKept_setIdx s _⟩

/-- Settles O34: a sum that fits is written to I, one that does not fit is the failure. -/
theorem addToIndex : Obligations.AddToIndex := by
  unfold Obligations.AddToIndex
  intro x s
  refine ⟨fun hfits => ?_, fun hover => exec_failedWith (if_pos hover)⟩
  refine ⟨_, exec_of_no_failure (if_neg (Nat.not_lt.mpr hfits)), ?_, allButIdxKept_setIdx s _⟩
  rw [effect, State.setIdx_idx, BitVec.toNat_ofNat, Nat.mod_eq_of_lt (Nat.lt_succ_of_le hfits)]

/-! #### Stores and loads through I -/

section
variable (s : State)

theorem withBytes_readByte (addr : Nat) (bs : List Byte) (k : Nat) (h : k < bs.length) :
    (s.withBytes addr bs).readByte (addr + k) = bs[k] :=
  readByte_stored s addr bs k h

theorem withBytes_readByte_outside (addr : Nat) (bs : List Byte) (a : Nat) (h : a < addr ∨ addr + bs.length ≤ a) :
    (s.withBytes addr bs).readByte a = s.readByte a :=
  readByte_outside_store s addr bs a h

theorem allButMemKept_withBytes (addr : Nat) (bs : List Byte) : AllButMemKept s (s.withBytes addr bs) :=
  allButMemKept_setMem s _

end

/-- Settles O35: the three digits are the three bytes stored. -/
theorem storeDecimalDigits : Obligations.StoreDecimalDigits := by
  unfold Obligations.StoreDecimalDigits
  intro x s
  refine ⟨fun hfits => ?_, fun hover => exec_failedWith (if_pos hover)⟩
  have hdigit (k : Nat) (hk : k < 3) := withBytes_readByte s s.dataAddr (bcdDigits (s.reg x)) k hk
  have hlt := (s.reg x).isLt
  refine ⟨_, exec_of_no_failure (if_neg (Nat.not_lt.mpr hfits)), ?_, ?_, ?_,
    withBytes_readByte_outside s s.dataAddr (bcdDigits (s.reg x)), allButMemKept_withBytes s _ _⟩
  · exact (congrArg BitVec.toNat (hdigit 0 (by decide))).trans (Nat.mod_eq_of_lt (by omega))
  · exact (congrArg BitVec.toNat (hdigit 1 (by decide))).trans (Nat.mod_eq_of_lt (by omega))
  · exact (congrArg BitVec.toNat (hdigit 2 (by decide))).trans (Nat.mod_eq_of_lt (by omega))

/-- Settles O36: the bytes stored are the registers, in order. -/
theorem storeRegisterRun : Obligations.StoreRegisterRun := by
  unfold Obligations.StoreRegisterRun
  intro x s
  refine ⟨fun hfits => ?_, fun hover => exec_failedWith (if_pos hover)⟩
  refine ⟨_, exec_of_no_failure (if_neg (Nat.not_lt.mpr hfits)), fun r hr => ?_, fun a ha => ?_,
    allButMemKept_withBytes s _ _⟩
  · have hlen : r.val < (s.regsUpTo x).length := by rw [length_regsUpTo]; omega
    exact (withBytes_readByte s s.dataAddr _ r.val hlen).trans (getElem_regsUpTo s x r hlen)
  · exact withBytes_readByte_outside s s.dataAddr _ a (by rwa [length_regsUpTo])

/-- A load of `n` bytes from memory fills the registers below `n` and leaves the others alone (R124). -/
theorem reg_loadRegs_bytesFrom (s : State) (addr n : Nat) (r : Reg) :
    (s.loadRegs (s.bytesFrom addr n)).reg r = if r.val < n then s.readByte (addr + r.val) else s.reg r := by
  rw [reg_loadRegs]
  simp only [length_bytesFrom, getElem_bytesFrom, dite_eq_ite]

theorem outsideRegsKept_loadRegs (s : State) (bs : List Byte) : OutsideRegsKept s (s.loadRegs bs) :=
  ⟨rfl, ⟨rfl, rfl⟩, ⟨rfl, rfl⟩, fun _ => rfl, fun _ _ => rfl, ⟨rfl, rfl, rfl⟩, ⟨rfl, rfl, rfl, rfl, rfl, rfl⟩⟩

/-- Settles O37: the registers up to x take the bytes read, in order. -/
theorem loadRegisterRun : Obligations.LoadRegisterRun := by
  unfold Obligations.LoadRegisterRun
  intro x s
  refine ⟨fun hfits => ?_, fun hover => exec_failedWith (if_pos hover)⟩
  refine ⟨_, exec_of_no_failure (if_neg (Nat.not_lt.mpr hfits)), fun r => ?_, rfl,
    outsideRegsKept_loadRegs s _, rfl, rfl⟩
  exact (reg_loadRegs_bytesFrom s s.dataAddr _ r).trans (by simp only [Nat.lt_succ_iff])

/-- Settles O38: the load reads the cells that the store wrote, since neither moves I nor looks at the registers that
come between. -/
theorem storeThenLoadRestoresRegisters : Obligations.StoreThenLoadRestoresRegisters := by
  unfold Obligations.StoreThenLoadRestoresRegisters
  intro x s t v hfits hstore
  obtain ⟨t', hstore', hstored, -, hframe⟩ := (storeRegisterRun x s).1 hfits
  obtain rfl : t' = t := Host.Outcome.next.inj (hstore'.symm.trans hstore)
  obtain ⟨-, -, hidx, -⟩ := hframe
  have haddr : ({ t' with v := v } : State).dataAddr = s.dataAddr := congrArg BitVec.toNat hidx
  obtain ⟨u, hload, hreg, -⟩ := (loadRegisterRun x { t' with v := v }).1 (haddr ▸ hfits)
  refine ⟨u, hload, fun r hr => ?_⟩
  rw [hreg, if_pos hr, haddr]
  exact hstored r hr

end Sys2Proof.Machine
end

section
/-! PROOF. O40 to O42, drawing (44_display.md R128 to R133): what a draw plots, told pixel by pixel, and a second draw
that plots the same pixels again. -/

namespace Sys2Proof.Machine

/-! #### The pixels of the sprite in memory -/

/-- The pixels that the sprite sets are those that a draw of its bytes plots (R128 to R130). -/
theorem spriteSets_iff_mem (s : State) (px py n : Nat) (X : Fin 64) (Y : Fin 32) :
    SpriteSets s px py n X Y ↔ (X, Y) ∈ spritePixels px py 0 (s.bytesFrom s.dataAddr n) := by
  rw [mem_spritePixels]
  constructor
  · rintro ⟨r, c, hr, hc, hX, hY, hbit⟩
    refine ⟨r, by rwa [length_bytesFrom], c, hc, ?_, Fin.ext hX, Fin.ext ?_⟩
    · rwa [getElem_bytesFrom]
    · rw [Nat.zero_add]
      exact hY
  · rintro ⟨r, hr, c, hc, hbit, hX, hY⟩
    rw [getElem_bytesFrom] at hbit
    rw [Nat.zero_add] at hY
    exact ⟨r, c, by rwa [length_bytesFrom] at hr, hc, congrArg Fin.val hX, congrArg Fin.val hY, hbit⟩

section
variable (s : State) (x y : Reg) (n : Nat)

/-- The sprite sets a pixel that is on (R131). -/
def SpriteMeets : Prop :=
  ∃ X Y, SpriteSets s (s.reg x).toNat (s.reg y).toNat n X Y ∧ s.readOut X Y = true

variable {n} (hn : n < 16)
include hn

theorem drawing_pixel (X : Fin 64) (Y : Fin 32) :
    (SpriteSets s (s.reg x).toNat (s.reg y).toNat n X Y →
      Framebuffer.pixel (s.drawing x y n).fb X Y = !s.readOut X Y) ∧
    (¬ SpriteSets s (s.reg x).toNat (s.reg y).toNat n X Y →
      Framebuffer.pixel (s.drawing x y n).fb X Y = s.readOut X Y) := by
  obtain ⟨hpixel, -⟩ := drawSprite_spec (s.reg x).toNat (s.reg y).toNat (s.bytesFrom s.dataAddr n) s.fb
    (by rw [length_bytesFrom]; omega)
  rw [State.drawing, hpixel, spriteSets_iff_mem, readOut_eq_pixel]
  exact ⟨fun h => if_pos h, fun h => if_neg h⟩

theorem drawing_collision_iff : (s.drawing x y n).collision = true ↔ SpriteMeets s x y n := by
  obtain ⟨-, hcollision⟩ := drawSprite_spec (s.reg x).toNat (s.reg y).toNat (s.bytesFrom s.dataAddr n) s.fb
    (by rw [length_bytesFrom]; omega)
  rw [State.drawing, hcollision, Prod.exists]
  simp only [SpriteMeets, spriteSets_iff_mem, readOut_eq_pixel]

/-- VF reports the collision (R131, R133). -/
theorem withSprite_flag : (SpriteMeets s x y n → (s.withSprite x y n).reg VF = 1#8) ∧
    (¬ SpriteMeets s x y n → (s.withSprite x y n).reg VF = 0#8) := by
  rw [← drawing_collision_iff s x y hn, State.withSprite, reg_setReg_same]
  cases (s.drawing x y n).collision with
  | true => exact ⟨fun _ => rfl, fun h => absurd rfl h⟩
  | false => exact ⟨fun h => absurd h Bool.false_ne_true, fun _ => rfl⟩

end

/-- Settles O40: the draw plots each pixel of the sprite once, and its effect is the framebuffer and VF alone. -/
theorem drawInvertsExactlyTheSpritePixels : Obligations.DrawInvertsExactlyTheSpritePixels := by
  unfold Obligations.DrawInvertsExactlyTheSpritePixels
  intro x y n s hn hfits
  have hno : ¬ (n ≥ 1 ∧ s.idx.toNat + n - 1 > 0xFFF) := by unfold State.dataAddr at hfits; omega
  refine ⟨_, exec_of_no_failure (if_neg hno), fun X Y => (drawing_pixel s x y hn X Y).1,
    fun X Y => (drawing_pixel s x y hn X Y).2, (withSprite_flag s x y hn).1, (withSprite_flag s x y hn).2,
    effect_regsKept s (.drw x y n), rfl, rfl, ⟨rfl, rfl⟩, ⟨rfl, rfl⟩, fun _ => rfl, ⟨rfl, rfl, rfl⟩,
    ⟨rfl, rfl, rfl, rfl, rfl, rfl⟩, ⟨rfl, rfl⟩⟩

/-- Settles O41: the range of the sprite is checked before anything is drawn. -/
theorem drawOutOfRangeFails : Obligations.DrawOutOfRangeFails := by
  unfold Obligations.DrawOutOfRangeFails
  intro x y n s hn hover
  exact exec_failedWith (if_pos ⟨hn, hover⟩)

/-! #### Drawing twice -/

/-- A sprite is the same where I and memory are. -/
theorem spriteSets_congr {s t : State} (hidx : t.idx = s.idx) (hmem : MemKept s t) (px py n : Nat) (X : Fin 64)
    (Y : Fin 32) : SpriteSets t px py n X Y ↔ SpriteSets s px py n X Y := by
  simp only [SpriteSets, State.dataAddr, hidx, hmem _]

/-- Settles O42: after the first draw I, memory and the two coordinates are as before, so the second inverts the same
pixels back. -/
theorem drawTwiceRestores : Obligations.DrawTwiceRestores := by
  unfold Obligations.DrawTwiceRestores
  intro x y n s t hn hx hy hfits hdraw
  obtain ⟨t', hdraw', hset, hunset, -, -, hregs, -, hidx, -, -, hmem, -⟩ :=
    drawInvertsExactlyTheSpritePixels x y n s hn hfits
  obtain rfl : t' = t := Host.Outcome.next.inj (hdraw'.symm.trans hdraw)
  have hrx : t'.reg x = s.reg x := hregs x (by simpa using hx)
  have hry : t'.reg y = s.reg y := hregs y (by simpa using hy)
  have haddr : t'.dataAddr = s.dataAddr := congrArg BitVec.toNat hidx
  obtain ⟨u, hdraw2, hset2, hunset2, hon, hoff, -⟩ := drawInvertsExactlyTheSpritePixels x y n t' hn (haddr ▸ hfits)
  simp only [hrx, hry, spriteSets_congr hidx hmem] at hset2 hunset2 hon hoff
  refine ⟨u, hdraw2, fun X Y => ?_, fun hVF => ?_, hon⟩
  · by_cases hsets : SpriteSets s (s.reg x).toNat (s.reg y).toNat n X Y
    · rw [hset2 X Y hsets, hset X Y hsets, Bool.not_not]
    · rw [hunset2 X Y hsets, hunset X Y hsets]
  · by_contra hmiss
    exact absurd (hVF.symm.trans (hoff hmiss)) (by decide)

end Sys2Proof.Machine
end

section
/-! PROOF. O4, O8, O10 to O14, O47, O49 and O56, the cycle (40_cycle.md R80 to R91): the step of each agent as an
equation, and what it says of stops, failures and inputs. -/

namespace Sys2Proof.Machine

/-! #### The core's turn, one equation per mode -/

section
variable {s : State}

theorem corePass_of_halted (h : s.mode = .halted) : corePass s = .fault .halted := by
  rw [corePass, h]

theorem corePass_of_quit (h : s.mode ≠ .halted) (hq : s.quit = true) : corePass s = .fault .quit := by
  unfold corePass
  split
  · exact absurd ‹_› h
  · exact if_pos hq
  · exact if_pos hq

theorem corePass_of_awaitKey (h : s.mode = .awaitKey) (hq : s.quit = false) :
    corePass s = .next (keyWaitPass s) := by
  simp only [corePass, h, hq, Bool.false_eq_true, if_false]

theorem corePass_of_running (h : s.mode = .running) (hq : s.quit = false) : corePass s = runningPass s := by
  simp only [corePass, h, hq, Bool.false_eq_true, if_false]

theorem step_of_halted (hc : s.CoreIsNext) (h : s.mode = .halted) : step s = .fault .halted :=
  (step_of_coreIsNext s hc).trans (corePass_of_halted h)

theorem step_of_quit (hc : s.CoreIsNext) (h : s.mode ≠ .halted) (hq : s.quit = true) : step s = .fault .quit :=
  (step_of_coreIsNext s hc).trans (corePass_of_quit h hq)

theorem step_of_nextEvent_boot {rom : List Byte} (h : s.nextEvent = .boot rom) :
    step s = .next (s.atPass.boot rom) := by
  rw [step, cycleStep, h]
  rfl

/-! #### Fetch, decode, execute, commit -/

theorem step_of_illegal {w : Word} (hf : s.Fetches w) (h : ∀ i, decodeWord w ≠ .ok i) :
    step s = .next (s.atPass.halt .decodeFailure (some w)) := by
  rw [step_of_fetches s w hf]
  cases hd : decodeWord w with
  | error r => rfl
  | ok i => exact absurd hd (h i)

theorem step_of_decoded {w : Word} {i : Instr} (hf : s.Fetches w) (hd : decodeWord w = .ok i) :
    step s = settle s.atPass (exec i (s.atPass.fetched w)) := by
  rw [step_of_fetches s w hf, hd]

/-- A pass that halts commits MODE and FAULT alone (R91). -/
theorem settle_next_of_halted (before : State) {t : State} (ht : t.mode = .halted) :
    settle before (.next t) = .next { before with mode := .halted, fault := t.fault } := by
  simp only [settle, ht, if_true]

/-- A RUNNING pass always answers a next state: each of its three checks fails into HALTED (60_exceptions.md R153). -/
theorem runningPass_next (s : State) : ∃ t, runningPass s = .next t := by
  unfold runningPass
  cases s.fetchWord with
  | none => exact ⟨_, rfl⟩
  | some w =>
    cases hd : decodeWord w with
    | error r => exact ⟨s.halt .decodeFailure (some w), by simp only [hd]⟩
    | ok i =>
      obtain ⟨t, ht⟩ := everyInstructionAnswersANextState i (s.fetched w)
      simp only [hd, ht]
      by_cases hh : t.mode = .halted
      · exact ⟨_, settle_next_of_halted s hh⟩
      · exact ⟨_, settle_next_of_not_halted s hh⟩

end

/-- Settles O4: the decoder refuses the words of R73, and the pass that fetches one halts. -/
theorem illegalWordsExactlyAndTheyHalt : Obligations.IllegalWordsExactlyAndTheyHalt := by
  unfold Obligations.IllegalWordsExactlyAndTheyHalt
  exact ⟨forall_decodeWord_ne_ok_iff_isIllegal, fun _ _ => step_of_illegal⟩

/-- Settles O10: the step is the instruction under the commit rule. -/
theorem stepRunsTheDecodedInstruction : Obligations.StepRunsTheDecodedInstruction := by
  unfold Obligations.StepRunsTheDecodedInstruction
  intro s w i hf hd
  obtain ⟨t, ht⟩ := everyInstructionAnswersANextState i (s.atPass.fetched w)
  refine ⟨decodeWord_wellFormed hd, t, ht, fun hh => ?_, fun hh => ?_⟩
  · rw [step_of_decoded hf hd, ht, settle_next_of_not_halted _ hh]
  · rw [step_of_decoded hf hd, ht, settle_next_of_halted _ hh]

/-- Settles O11: the fetch is the first check of a RUNNING pass. -/
theorem fetchPastMemoryHalts : Obligations.FetchPastMemoryHalts := by
  unfold Obligations.FetchPastMemoryHalts
  intro s hc hmode hquit hpc
  have hfetch : s.atPass.fetchWord = none := (fetchWord_eq s.atPass).trans (if_neg (Nat.not_le.mpr hpc))
  rw [step_of_coreIsNext s hc, corePass_of_running (s := s.atPass) hmode hquit, runningPass, hfetch]
  rfl

/-- Settles O12: the three agents in HALTED, each by its own equation. -/
theorem haltedHasNoPassAndNoTick : Obligations.HaltedHasNoPassAndNoTick := by
  unfold Obligations.HaltedHasNoPassAndNoTick
  intro s hmode
  refine ⟨fun hc => step_of_halted hc hmode, fun htick => ?_, fun rom hboot hfits => ?_⟩
  · rw [step_of_nextEvent_tick s htick, tick, if_pos (s.atPass_mode.trans hmode)]
  · refine ⟨_, step_of_nextEvent_boot hboot, ?_⟩
    rw [boot_of_fits s.atPass hfits]
    exact ⟨rfl, rfl, rfl⟩

/-! #### A program that does not fit -/

section
variable (s : State) {rom : List Byte} (h : 3584 < rom.length)
include h

/-- After the failed load the machine is the reset one, halted, with no cell written (R151). -/
theorem boot_of_oversized : s.boot rom =
    { s.hostReset with mode := .halted, fault := some { kind := .romLoadFailure, word := none, addr := none } } :=
  if_pos h

theorem readByte_boot_of_oversized (a : Nat) : (s.boot rom).readByte a = bootByte s.font a := by
  rw [boot_of_oversized s h]
  rfl

end

/-- Settles O8: the failed load leaves the boot contents, HALTED and the schedule, so a pass that is next stops. -/
theorem oversizedProgramNeverRuns : Obligations.OversizedProgramNeverRuns := by
  unfold Obligations.OversizedProgramNeverRuns
  intro s rom h
  have hmode : (s.boot rom).mode = .halted := by rw [boot_of_oversized s h]
  refine ⟨hmode, by rw [boot_of_oversized s h]; rfl, fun k => ?_, fun a ha => ?_, fun hc => ?_⟩
  · rw [readByte_boot_of_oversized s h, bootByte_font]
  · rw [readByte_boot_of_oversized s h, bootByte_outside s.font a ha]
  · obtain ⟨hagenda, hlater⟩ := boot_schedule s rom
    exact step_of_halted ((nextEvent_congr hagenda hlater).trans hc) hmode

/-! #### The inputs belong to the host -/

/-- KEY, quit and FONT are the same in both states. -/
def InputsKept (s t : State) : Prop := t.keys = s.keys ∧ t.quit = s.quit ∧ t.font = s.font

section
variable {s t : State}

theorem HostKept.inputsKept (h : HostKept s t) : InputsKept s t := by
  obtain ⟨-, hkeys, hquit, -, -, hfont⟩ := h
  exact ⟨hkeys, hquit, hfont⟩

theorem keyWaitPass_inputsKept (s : State) : InputsKept s (keyWaitPass s) := by
  unfold keyWaitPass
  cases lowestKey s.keys <;> exact ⟨rfl, rfl, rfl⟩

theorem tick_inputsKept (s : State) : InputsKept s (tick s) := by
  rw [tick_eq]
  exact ⟨rfl, rfl, rfl⟩

theorem step_inputsKept (he : s.nextEvent = .pass ∨ s.nextEvent = .tick)
    (hstep : step s = .next t) : InputsKept s t := by
  rcases step_next_cases hstep with ⟨-, -, -, -, rfl⟩ | ⟨w, -, -, rfl⟩ | ⟨w, i, u, -, -, hexec, rfl⟩ |
    ⟨-, -, -, rfl⟩ | ⟨-, rfl⟩ | ⟨k, hs, -⟩ | ⟨hs, -⟩ | ⟨rom, hs, -⟩
  · exact ⟨rfl, rfl, rfl⟩
  · exact ⟨rfl, rfl, rfl⟩
  · split
    · exact ⟨rfl, rfl, rfl⟩
    · exact (exec_keepsHost i (s.atPass.fetched w) u hexec).inputsKept
  · exact keyWaitPass_inputsKept s.atPass
  · exact tick_inputsKept s.atPass
  all_goals rcases he with he | he <;> cases he.symm.trans hs

end

/-- Settles O56: the core and the timer engine write no input, and their step uses up its event. -/
theorem hostInputsChangeOnlyByTheHost : Obligations.HostInputsChangeOnlyByTheHost := by
  unfold Obligations.HostInputsChangeOnlyByTheHost
  intro s t he hstep
  obtain ⟨hkeys, hquit, hfont⟩ := step_inputsKept he hstep
  exact ⟨hkeys, hquit, hfont, step_scheduleKept hstep⟩

/-- Settles O13: the core's turn stops at quit, no instruction looks at it, and no pass writes it. -/
theorem quitStopsThePassesAndIsInvisible : Obligations.QuitStopsThePassesAndIsInvisible := by
  unfold Obligations.QuitStopsThePassesAndIsInvisible
  exact ⟨fun _ hq hmode hc => step_of_quit hc hmode hq, exec_setQuit,
    fun _ _ hc hstep => (step_inputsKept (.inl hc) hstep).2.1⟩

/-! #### The key wait -/

section
variable {s : State}

theorem keyWaitPass_of_none (h : lowestKey s.keys = none) : keyWaitPass s = s := by
  rw [keyWaitPass, h]

theorem keyWaitPass_of_some {k : Reg} (h : lowestKey s.keys = some k) :
    keyWaitPass s = (s.setReg s.kreg (BitVec.ofNat 8 k.val)).resume := by
  rw [keyWaitPass, h]

end

/-- Settles O14: the pass writes the smallest pressed key, which fits a byte, and MODE; or nothing. -/
theorem keyWaitPassTakesTheSmallestKey : Obligations.KeyWaitPassTakesTheSmallestKey := by
  unfold Obligations.KeyWaitPassTakesTheSmallestKey
  intro s hc hmode hquit
  have hstep : step s = .next (keyWaitPass s.atPass) :=
    (step_of_coreIsNext s hc).trans (corePass_of_awaitKey hmode hquit)
  refine ⟨fun hnone => ?_, fun k hk hmin => ?_⟩
  · rw [hstep, keyWaitPass_of_none (s := s.atPass) ((lowestKey_eq_none_iff _).mpr hnone)]
  · rw [keyWaitPass_of_some (s := s.atPass) ((lowestKey_eq_some_iff _ _).mpr ⟨hk, hmin⟩)] at hstep
    refine ⟨_, hstep, ?_, rfl, rfl, fun r hr => ?_, rfl, ⟨rfl, rfl⟩, ⟨rfl, rfl⟩, fun _ => rfl, fun _ _ => rfl, rfl, rfl,
      ⟨rfl, rfl, rfl, rfl, rfl, rfl⟩, ⟨rfl, rfl⟩⟩
    · rw [State.resume_reg, State.atPass_kreg, reg_setReg_same, BitVec.toNat_ofNat]
      exact Nat.mod_eq_of_lt (by omega)
    · rw [State.resume_reg, State.atPass_kreg, reg_setReg_ne _ _ (List.ne_of_not_mem_cons hr), State.atPass_reg]

/-! #### Failures and stops -/

/-- An instruction that runs and leaves HALTED has failed: FAULT names its word and its address (R152). -/
theorem fault_of_exec_halted {s u : State} {w : Word} {i : Instr} (hf : s.Fetches w)
    (hexec : exec i (s.atPass.fetched w) = .next u) (hu : u.mode = .halted) :
    ∃ k, u.fault = some { kind := k, word := some w, addr := some s.pc } := by
  obtain ⟨-, hmode, -⟩ := hf
  have hrun : (s.atPass.fetched w).mode ≠ .halted := fun h => by cases hmode.symm.trans h
  rcases exec_next_cases hexec with ⟨-, rfl⟩ | ⟨k, -, -, hfault, -⟩
  · exact absurd hu (effect_not_halted i _ hrun)
  · refine ⟨k, ?_⟩
    rw [hfault, State.fetched_ir, State.fetched_pc, State.atPass_pc, BitVec.add_sub_cancel]

/-- Settles O47: of the ways a RUNNING pass can end, three are failures, and the commit rule makes each of them a halt
of the state before the pass. -/
theorem failuresArePrecise : Obligations.FailuresArePrecise := by
  unfold Obligations.FailuresArePrecise
  intro s t hmode hc hstep ht
  have hpass : s.nextEvent = .pass := hc
  rcases step_next_cases hstep with ⟨-, -, -, hpc, rfl⟩ | ⟨w, hf, -, rfl⟩ | ⟨w, i, u, hf, -, hexec, rfl⟩ |
    ⟨-, hawait, -⟩ | ⟨hs, -⟩ | ⟨k, hs, -⟩ | ⟨hs, -⟩ | ⟨rom, hs, -⟩
  · exact ⟨⟨.addressOutOfRange, none, some s.pc⟩, rfl, rfl, fun _ => ⟨hpc, rfl⟩, nofun⟩
  · exact ⟨⟨.decodeFailure, some w, some s.pc⟩, rfl, rfl, nofun, fun x hx => Option.some.inj hx ▸ hf⟩
  · by_cases hu : u.mode = .halted
    · obtain ⟨k, hfault⟩ := fault_of_exec_halted hf hexec hu
      rw [if_pos hu, hu, hfault]
      exact ⟨⟨k, some w, some s.pc⟩, rfl, rfl, nofun, fun x hx => Option.some.inj hx ▸ hf⟩
    · rw [if_neg hu] at ht
      exact absurd ht hu
  · cases hmode.symm.trans hawait
  all_goals cases hpass.symm.trans hs

/-- Settles O49: of the five events only the pass can stop, and only in HALTED or after quit. -/
theorem aStepStopsOnlyInHaltedOrAfterQuit : Obligations.AStepStopsOnlyInHaltedOrAfterQuit := by
  unfold Obligations.AStepStopsOnlyInHaltedOrAfterQuit
  intro s
  have hact : step s = act s.nextEvent s.atPass := rfl
  cases he : s.nextEvent with
  | tick | setKeys | setQuit | boot => exact .inl ⟨_, hact.trans (by rw [he]; rfl)⟩
  | pass =>
    by_cases hhalt : s.mode = .halted
    · exact .inr ⟨he, .inl ⟨hhalt, step_of_halted he hhalt⟩⟩
    cases hquit : s.quit with
    | true => exact .inr ⟨he, .inr ⟨hhalt, rfl, step_of_quit he hhalt hquit⟩⟩
    | false =>
      left
      rw [step_of_coreIsNext s he]
      cases hmode : s.mode with
      | halted => exact absurd hmode hhalt
      | awaitKey => exact ⟨_, corePass_of_awaitKey hmode hquit⟩
      | running => exact corePass_of_running (s := s.atPass) hmode hquit ▸ runningPass_next s.atPass

end Sys2Proof.Machine
end

section
/-! PROOF. O18, O51 to O53 and O55, the rules of the whole machine: a step is the effect of an instruction, a boot, or
quiet, and a quiet step reaches neither pc, nor the stack, nor memory, nor the framebuffer. -/

namespace Sys2Proof.Machine

/-! #### Quiet steps -/

/-- What every step keeps that is neither the effect of an instruction nor a boot: a failure, a key wait, a tick, an
input set by the host. -/
structure QuietStep (s t : State) : Prop where
  pc : t.pc = s.pc
  stack : StackKept s t
  mem : t.mem = s.mem
  font : t.font = s.font
  fb : t.fb = s.fb
  st : t.st.toNat ≤ s.st.toNat

section
variable (s : State)

theorem tick_st_le : (tick s).st.toNat ≤ s.st.toNat := by
  by_cases hm : s.mode = .halted
  · rw [tick, if_pos hm]
  · rw [tick_of_not_halted s hm, State.setSt_st, toNat_decayed]
    exact Nat.sub_le _ _

theorem tick_quiet : QuietStep s (tick s) := by
  have hst := tick_st_le s
  rw [tick_eq]
  exact ⟨rfl, ⟨rfl, rfl⟩, rfl, rfl, rfl, hst⟩

theorem keyWaitPass_quiet : QuietStep s (keyWaitPass s) := by
  unfold keyWaitPass
  cases lowestKey s.keys <;> exact ⟨rfl, ⟨rfl, rfl⟩, rfl, rfl, rfl, le_rfl⟩

end

/-- The schedule is no part of what a quiet step keeps. -/
theorem QuietStep.of_atPass {s t : State} (h : QuietStep s.atPass t) : QuietStep s t :=
  ⟨h.pc, h.stack, h.mem, h.font, h.fb, h.st⟩

/-- An instruction that does not leave HALTED has had its effect. -/
theorem eq_effect_of_not_halted {i : Instr} {s u : State} (hexec : exec i s = .next u) (hu : u.mode ≠ .halted) :
    instrFailure i s = none ∧ u = effect i s := by
  rcases exec_next_cases hexec with heffect | ⟨k, -, hhalted, -⟩
  · exact heffect
  · exact absurd hhalted hu

/-- The commit rule makes every failure quiet, so a step that is not quiet is an effect or a boot. -/
theorem step_quiet_or {s t : State} (hstep : step s = .next t) : QuietStep s t ∨
    (∃ w i, s.Fetches w ∧ decodeWord w = .ok i ∧ instrFailure i (s.atPass.fetched w) = none ∧
      t = effect i (s.atPass.fetched w)) ∨
    (∃ rom, s.nextEvent = .boot rom ∧ t = s.atPass.boot rom) := by
  have halt_quiet (m : Mode) (f : Option FaultRecord) : QuietStep s { s.atPass with mode := m, fault := f } :=
    ⟨rfl, ⟨rfl, rfl⟩, rfl, rfl, rfl, le_rfl⟩
  rcases step_next_cases hstep with ⟨-, -, -, -, rfl⟩ | ⟨w, -, -, rfl⟩ | ⟨w, i, u, hf, hd, hexec, rfl⟩ |
    ⟨-, -, -, rfl⟩ | ⟨-, rfl⟩ | ⟨k, -, rfl⟩ | ⟨-, rfl⟩ | hboot
  · exact .inl (halt_quiet _ _)
  · exact .inl (halt_quiet _ _)
  · by_cases hu : u.mode = .halted
    · rw [if_pos hu]
      exact .inl (halt_quiet _ _)
    · rw [if_neg hu]
      obtain ⟨hnone, rfl⟩ := eq_effect_of_not_halted hexec hu
      exact .inr (.inl ⟨w, i, hf, hd, hnone, rfl⟩)
  · exact .inl (keyWaitPass_quiet s.atPass).of_atPass
  · exact .inl (tick_quiet s.atPass).of_atPass
  · exact .inl ⟨rfl, ⟨rfl, rfl⟩, rfl, rfl, rfl, le_rfl⟩
  · exact .inl ⟨rfl, ⟨rfl, rfl⟩, rfl, rfl, rfl, le_rfl⟩
  · exact .inr (.inr hboot)

/-! #### The rules, component by component -/

/-- Settles O51: the two stores are the instructions whose effect writes memory. -/
theorem memoryChangesOnlyByStoresAndBoot : Obligations.MemoryChangesOnlyByStoresAndBoot := by
  unfold Obligations.MemoryChangesOnlyByStoresAndBoot
  intro s t hstep
  rcases step_quiet_or hstep with hquiet | ⟨w, i, hf, hd, -, rfl⟩ | ⟨rom, hboot, -⟩
  · left
    intro a
    rw [State.readByte, State.readByte, hquiet.mem, hquiet.font]
  · have hruns : s.Runs i := ⟨w, hf, hd⟩
    cases i with
    | ldB x => exact .inr (.inl ⟨x, hruns⟩)
    | storeRegs x => exact .inr (.inr (.inl ⟨x, hruns⟩))
    | _ => exact .inl fun _ => rfl
  · exact .inr (.inr (.inr ⟨rom, hboot⟩))

/-- Settles O52: `CLS` and `DRW` are the instructions whose effect writes the framebuffer. -/
theorem framebufferChangesOnlyByClsDrwAndBoot : Obligations.FramebufferChangesOnlyByClsDrwAndBoot := by
  unfold Obligations.FramebufferChangesOnlyByClsDrwAndBoot
  intro s t hstep
  rcases step_quiet_or hstep with hquiet | ⟨w, i, hf, hd, -, rfl⟩ | ⟨rom, hboot, -⟩
  · exact .inl hquiet.fb
  · have hruns : s.Runs i := ⟨w, hf, hd⟩
    cases i with
    | cls => exact .inr (.inl hruns)
    | drw x y n => exact .inr (.inr (.inl ⟨x, y, n, hruns⟩))
    | _ => exact .inl rfl
  · exact .inr (.inr (.inr ⟨rom, hboot⟩))

theorem sp_lt_of_call_succeeds {nnn : BitVec 12} {s : State} (h : instrFailure (.call nnn) s = none) :
    s.sp.val < 16 := by
  have hne : s.sp.val ≠ 16 := fun hfull => by simp [instrFailure, hfull] at h
  omega

theorem sp_pos_of_ret_succeeds {s : State} (h : instrFailure .ret s = none) : 0 < s.sp.val :=
  Nat.pos_of_ne_zero fun hempty => by simp [instrFailure, hempty] at h

/-- Settles O53: `CALL` and `RET` are the instructions whose effect writes the stack, one push or one pop. -/
theorem stackChangesOnlyByCallRetAndBoot : Obligations.StackChangesOnlyByCallRetAndBoot := by
  unfold Obligations.StackChangesOnlyByCallRetAndBoot
  intro s t hstep
  rcases step_quiet_or hstep with hquiet | ⟨w, i, hf, hd, hnone, rfl⟩ | ⟨rom, hboot, -⟩
  · exact .inl hquiet.stack
  · have hruns : s.Runs i := ⟨w, hf, hd⟩
    cases i with
    | call nnn =>
      have hlt : (s.atPass.fetched w).sp.val < 16 := sp_lt_of_call_succeeds hnone
      exact .inr (.inl ⟨nnn, hruns, pushed_sp (s.atPass.fetched w) (s.atPass.fetched w).pc hlt⟩)
    | ret =>
      have hsp : (effect .ret (s.atPass.fetched w)).sp.val = s.sp.val - 1 := popped_sp _
      have hpos : 0 < s.sp.val := sp_pos_of_ret_succeeds hnone
      exact .inr (.inr (.inl ⟨hruns, by omega, rfl⟩))
    | _ => exact .inl ⟨rfl, rfl⟩
  · exact .inr (.inr (.inr ⟨rom, hboot⟩))

theorem boot_st (s : State) (rom : List Byte) : (s.boot rom).st = 0x00#8 := by
  unfold State.boot State.loadProgram
  split <;> rfl

theorem step_st_le_or {s t : State} (hstep : step s = .next t) :
    t.st.toNat ≤ s.st.toNat ∨ ∃ x, s.Runs (.ldStVx x) := by
  rcases step_quiet_or hstep with hquiet | ⟨w, i, hf, hd, -, rfl⟩ | ⟨rom, -, rfl⟩
  · exact .inl hquiet.st
  · cases i with
    | ldStVx x => exact .inr ⟨x, w, hf, hd⟩
    | _ => exact .inl le_rfl
  · rw [boot_st]
    exact .inl (Nat.zero_le _)

/-- Settles O18: neither timer rises but by its own load. -/
theorem timersNeverRiseUnasked : Obligations.TimersNeverRiseUnasked := by
  unfold Obligations.TimersNeverRiseUnasked
  intro s t hstep
  exact ⟨or_iff_not_imp_right.mpr fun hload => step_dt_le hstep (not_exists.mp hload), step_st_le_or hstep⟩

/-- Settles O55: of everything a step can do, an effect writes MODE for `LD Vx,K` alone, a failure sets HALTED with its
record, and the key wait goes on or resumes. -/
theorem modeChangesOnlyAsListed : Obligations.ModeChangesOnlyAsListed := by
  unfold Obligations.ModeChangesOnlyAsListed
  intro s t hstep
  rcases step_next_cases hstep with ⟨hc, hrun, -, -, rfl⟩ | ⟨w, ⟨hc, hrun, -⟩, -, rfl⟩ |
    ⟨w, i, u, hf, hd, hexec, rfl⟩ | ⟨hc, hawait, -, rfl⟩ | ⟨-, rfl⟩ | ⟨k, -, rfl⟩ | ⟨-, rfl⟩ | ⟨rom, hboot, -⟩
  · exact .inr (.inr (.inr (.inl ⟨hrun, rfl, hc, rfl⟩)))
  · exact .inr (.inr (.inr (.inl ⟨hrun, rfl, hc, rfl⟩)))
  · obtain ⟨hc, hrun, -⟩ := id hf
    by_cases hu : u.mode = .halted
    · obtain ⟨k, hfault⟩ := fault_of_exec_halted hf hexec hu
      rw [if_pos hu]
      exact .inr (.inr (.inr (.inl ⟨hrun, hu, hc, Option.isSome_of_eq_some hfault⟩)))
    · rw [if_neg hu]
      obtain ⟨-, rfl⟩ := eq_effect_of_not_halted hexec hu
      rcases effect_mode i (s.atPass.fetched w) with hmode | ⟨x, rfl⟩
      · exact .inl hmode
      · exact .inr (.inl ⟨hrun, rfl, x, ⟨w, hf, hd⟩, rfl⟩)
  · cases hkey : lowestKey s.keys with
    | none => exact .inl (by rw [keyWaitPass_of_none (s := s.atPass) hkey]; rfl)
    | some k =>
      rw [keyWaitPass_of_some (s := s.atPass) hkey]
      exact .inr (.inr (.inl ⟨hawait, rfl, hc, k.val, k.isLt, ((lowestKey_eq_some_iff _ _).mp hkey).1⟩))
  · exact .inl (tick_mode s.atPass)
  · exact .inl rfl
  · exact .inl rfl
  · exact .inr (.inr (.inr (.inr ⟨rom, hboot⟩)))

end Sys2Proof.Machine
end

section
/-! PROOF. O6, O58, O59 and O60, reset and the invariant (10_state.md R18, R21, R25, R31; log 8): reset and boot
establish it, and an effect or a quiet step keeps each of its four parts. -/

namespace Sys2Proof.Machine

/-! #### Reset and boot establish the invariant -/

/-- Settles O6: the fields as State.reset writes them, and memory as its boot contents. -/
theorem resetValues : Obligations.ResetValues := by
  unfold Obligations.ResetValues
  refine ⟨rfl, pixel_blank, bootByte_font defaultFont, bootByte_outside defaultFont, fun r => ?_, rfl, rfl, rfl, rfl,
    rfl, rfl⟩
  exact Vector.getElem_replicate _

/-- The invariant holds of a machine as reset leaves it, whatever FONT and the inputs are. -/
theorem hostReset_inv (s : State) : s.hostReset.Inv where
  memWf := rfl
  faultIffHalted := ⟨nofun, nofun⟩
  pcInRange := by
    unfold State.PcInRange
    exact (by decide : (0x0200#16).toNat ≤ 0x10FE)
  liveSlotsInRange := fun k hk => absurd hk (Nat.not_lt_zero k.val)

/-- Settles O58: State.reset is the machine that a reset of it leaves. -/
theorem resetSatisfiesTheInvariant : Obligations.ResetSatisfiesTheInvariant := by
  unfold Obligations.ResetSatisfiesTheInvariant
  exact hostReset_inv State.reset

theorem withBytes_keeps_wf {s : State} {addr : Nat} {bs : List Byte} (h : s.MemWf)
    (hfits : bs.length = 0 ∨ addr + bs.length - 1 ≤ 4095) : (s.withBytes addr bs).MemWf :=
  memWrite_keeps_wf s _ addr bs h (memWrite_of_fits s hfits)

/-- A load that fits stores canonically; one that does not leaves the reset machine with a record and HALTED. -/
theorem boot_inv (s : State) (rom : List Byte) : (s.boot rom).Inv := by
  obtain ⟨hmem, hfault, hpc, hslots⟩ := hostReset_inv s
  rcases Nat.lt_or_ge 3584 rom.length with hover | hfits
  · rw [boot_of_oversized s hover]
    exact ⟨hmem, ⟨fun _ => rfl, fun _ => rfl⟩, hpc, hslots⟩
  · rw [boot_of_fits s hfits]
    exact ⟨withBytes_keeps_wf hmem (by omega), hfault, hpc, hslots⟩

/-- Settles O59: a boot is a reset and a load, and the load keeps what the reset established, also where it fails. -/
theorem bootEstablishesTheInvariant : Obligations.BootEstablishesTheInvariant := by
  unfold Obligations.BootEstablishesTheInvariant
  exact boot_inv

/-! #### An effect keeps memory, pc and the live slots in their ranges -/

section
variable (i : Instr) {s : State} (hnone : instrFailure i s = none)
include hnone

/-- The two stores check their range before they write. -/
theorem effect_memWf (h : s.MemWf) : (effect i s).MemWf := by
  cases i with
  | ldB x =>
    refine withBytes_keeps_wf h (.inr ?_)
    have hfits : ¬ s.idx.toNat + 2 > 0xFFF := fun hover => by simp [instrFailure, hover] at hnone
    exact Nat.le_of_not_lt hfits
  | storeRegs x =>
    refine withBytes_keeps_wf h (.inr ?_)
    have hfits : ¬ s.idx.toNat + x.val > 0xFFF := fun hover => by simp [instrFailure, hover] at hnone
    rw [length_regsUpTo]
    exact Nat.le_of_not_lt hfits
  | _ => exact h

variable (hlow : 2 ≤ s.pc.toNat) (hhigh : s.pc.toNat ≤ 0x1000) (hslots : s.LiveSlotsInRange)
include hlow hhigh hslots

/-- A push adds a slot that holds pc; a pop only gives slots up. -/
theorem effect_liveSlotsInRange : (effect i s).LiveSlotsInRange := by
  cases i with
  | call nnn =>
    intro k hk
    have hsp : (effect (.call nnn) s).sp.val = s.sp.val + 1 := pushed_sp s s.pc (sp_lt_of_call_succeeds hnone)
    have hstk : (effect (.call nnn) s).stk[k.val] = if k.val = s.sp.val then s.pc else s.stk[k.val] :=
      pushed_stk s s.pc k
    rw [hstk]
    split
    · exact ⟨hlow, hhigh⟩
    · exact hslots k (by omega)
  | ret =>
    intro k hk
    have hsp : (effect .ret s).sp.val = s.sp.val - 1 := popped_sp s
    exact hslots k (by omega)
  | _ => exact hslots

/-- The highest target is that of `JP V0,nnn`, 0xFF + 0xFFF (10_state.md R18). -/
theorem effect_pcInRange : (effect i s).PcInRange := by
  have hkept : s.pc.toNat ≤ 0x10FE := by omega
  have hskip (c : Bool) : (s.skipped c).pc.toNat ≤ 0x10FE := by
    rw [State.skipped, State.setPc_pc]
    split
    · rw [BitVec.toNat_add, BitVec.toNat_ofNat]
      omega
    · exact hkept
  have haddr (nnn : BitVec 12) : (addrOperand nnn).toNat ≤ 0xFFF := by
    rw [toNat_addrOperand]
    exact Nat.le_of_lt_succ nnn.isLt
  cases i with
  | seImm | sneImm | seReg | sneReg | skp | sknp => exact hskip _
  | jp nnn | call nnn => exact (haddr nnn).trans (by decide)
  | jpV0 nnn =>
    have hbyte := toNat_byteOperand (s.reg 0)
    have hnnn := haddr nnn
    unfold State.PcInRange
    rw [effect, State.setPc_pc, BitVec.toNat_add]
    omega
  | ret =>
    have hpos : 0 < s.sp.val := sp_pos_of_ret_succeeds hnone
    obtain ⟨-, htop⟩ := hslots ⟨s.sp.val - 1, by omega⟩ (Nat.sub_lt hpos Nat.one_pos)
    exact htop.trans (by decide)
  | _ => exact hkept

end

/-! #### FAULT and HALTED go together -/

section
variable {s t : State}

/-- A machine that is not halted has no record, and keeps none as long as it does not halt. -/
theorem State.FaultIffHalted.of_not_halted (h : s.FaultIffHalted) (hs : s.mode ≠ .halted) (hfault : t.fault = s.fault)
    (ht : t.mode ≠ .halted) : t.FaultIffHalted := by
  unfold State.FaultIffHalted
  rw [hfault]
  exact ⟨fun hsome => absurd (h.mp hsome) hs, fun hhalted => absurd hhalted ht⟩

theorem step_faultIffHalted (h : s.FaultIffHalted) (hstep : step s = .next t) : t.FaultIffHalted := by
  rcases step_next_cases hstep with ⟨-, -, -, -, rfl⟩ | ⟨w, -, -, rfl⟩ | ⟨w, i, u, hf, -, hexec, rfl⟩ |
    ⟨-, hawait, -, rfl⟩ | ⟨-, rfl⟩ | ⟨k, -, rfl⟩ | ⟨-, rfl⟩ | ⟨rom, -, rfl⟩
  · exact ⟨fun _ => rfl, fun _ => rfl⟩
  · exact ⟨fun _ => rfl, fun _ => rfl⟩
  · by_cases hu : u.mode = .halted
    · obtain ⟨k, hfault⟩ := fault_of_exec_halted hf hexec hu
      rw [if_pos hu]
      exact ⟨fun _ => hu, fun _ => Option.isSome_of_eq_some hfault⟩
    · rw [if_neg hu]
      obtain ⟨-, hrun, -⟩ := hf
      obtain ⟨-, rfl⟩ := eq_effect_of_not_halted hexec hu
      exact h.of_not_halted (by rw [hrun]; decide) (effect_fault i _) hu
  · cases hkey : lowestKey s.keys with
    | none => rwa [keyWaitPass_of_none (s := s.atPass) hkey]
    | some k =>
      rw [keyWaitPass_of_some (s := s.atPass) hkey]
      exact h.of_not_halted (by rw [hawait]; decide) rfl nofun
  · rw [tick_eq]
    exact h
  · exact h
  · exact h
  · exact (boot_inv s.atPass rom).faultIffHalted

end

/-! #### Every step keeps the invariant -/

section
variable {s t : State}

theorem QuietStep.liveSlotsInRange (h : QuietStep s t) (hslots : s.LiveSlotsInRange) : t.LiveSlotsInRange := by
  obtain ⟨hsp, hstk⟩ := h.stack
  unfold State.LiveSlotsInRange
  rwa [hsp, hstk]

theorem QuietStep.memWf (h : QuietStep s t) (hmem : s.MemWf) : t.MemWf := by
  unfold State.MemWf
  rwa [h.mem, h.font]

/-- Where an instruction runs, pc stands 2 above an address that could be fetched. -/
theorem pc_fetched_of_fetches {w : Word} (hf : s.Fetches w) :
    2 ≤ (s.atPass.fetched w).pc.toNat ∧ (s.atPass.fetched w).pc.toNat ≤ 0x1000 := by
  obtain ⟨-, -, -, hpc, -⟩ := hf
  rw [State.fetched_pc, State.atPass_pc, BitVec.toNat_add, BitVec.toNat_ofNat]
  omega

end

/-- Settles O60: FAULT by the way the step ends, the other three parts by whether it is quiet, an effect or a boot. -/
theorem everyStepKeepsTheInvariant : Obligations.EveryStepKeepsTheInvariant := by
  unfold Obligations.EveryStepKeepsTheInvariant
  intro s t hinv hstep
  obtain ⟨hmem, hfault, hpc, hslots⟩ := hinv
  have hfault' := step_faultIffHalted hfault hstep
  rcases step_quiet_or hstep with hquiet | ⟨w, i, hf, -, hnone, rfl⟩ | ⟨rom, -, rfl⟩
  · have hpc' : t.PcInRange := by
      unfold State.PcInRange
      rwa [hquiet.pc]
    exact ⟨hquiet.memWf hmem, hfault', hpc', hquiet.liveSlotsInRange hslots⟩
  · obtain ⟨hlow, hhigh⟩ := pc_fetched_of_fetches hf
    exact ⟨effect_memWf i hnone hmem, hfault', effect_pcInRange i hnone hlow hhigh hslots,
      effect_liveSlotsInRange i hnone hlow hhigh hslots⟩
  · exact boot_inv s.atPass rom

end Sys2Proof.Machine
end
